-- ==== Sys2Proof/Word.lean ====
section
/-! DEFINITION. The widths of the SdP block as names for bit vectors (rule R7). -/

namespace Sys2Proof

/-- A memory cell, a stream byte, the accumulator (R7, R19, R26). -/
abbrev Byte := BitVec 8

/-- A 16-bit address, `PC` or `IR` (R7, R20, R21). -/
abbrev Word := BitVec 16

/-- The 12-bit operand `field` of a two-byte instruction, and an offset within a bank (R57). -/
abbrev Field := BitVec 12

/-- A 4-bit opcode, sub-operand or bank number (R7, R58). -/
abbrev Nibble := BitVec 4

end Sys2Proof
end

