-- ==== Sys2Proof/Config.lean ====
section
/-! DEFINITION. What an implementation fixes (R7, R8) and the values the spec leaves free.
The constants marked `opaque` have no body: a claim about the machine is true whatever they are. -/

namespace Sys2Proof

/-- Bytes in a bank (R7). -/
def Config.bankSize : Nat := 4096

/-- The highest offset of a bank, 0x0FFF; an access above it overruns the bank (R45). -/
def Config.lastOffset : Nat := 0x0FFF

/-- Size of the whole address space: 16 banks of 4096 bytes (R7, R37). -/
def Config.memorySize : Nat := 65536

/-- The entry vector's offset in bank 0: its high byte, the low byte follows (R7, R124). -/
def Config.entryVector : Nat := 0x0022

/-- `RESERVED_BOUNDARY` (R8, R48, D7): an OPEN parameter of the spec, so a constant without a body. Log entry 2. -/
opaque Config.reservedBoundary : Word

/-- The unspecified value of `IR` after a fault (R21, R83, D11, U4). The n-th fault of a life leaves
`freeIR n`. Log entry 3. -/
opaque Config.freeIR : Nat → Word

/-- The bytes the host's console supplies on slot 0 (R29, R99, D25). A bound stream is fixed at its binding,
and the spec does not say what the console holds: the n-th binding supplies `consoleInput n`. Log entry 4. -/
opaque Config.consoleInput : Nat → List Byte

/-- The width of an instruction (R7, R59): one byte, format `W1`, or two, format `W2`. -/
inductive OpWidth where
  | one | two
deriving DecidableEq, Repr

/-- A setting of the parameter `INSN_WIDTH`: the width of each opcode 0x0 to 0xC (R8, R59, D2). -/
structure InsnWidths where
  jp : OpWidth
  jz : OpWidth
  jn : OpWidth
  cn : OpWidth
  add : OpWidth
  sub : OpWidth
  mul : OpWidth
  div : OpWidth
  ld : OpWidth
  mm : OpWidth
  sc : OpWidth
  os : OpWidth
  io : OpWidth
deriving DecidableEq, Repr

/-- The settings of the parameter `OPERAND_SOURCE` (R8, R82, D1). -/
inductive OperandSource where
  /-- The operand value of `+ - * / LD` is the resolved 12-bit quantity (the default, normative). -/
  | resolvedValue
  /-- The operand value is the byte at the resolved address (the non-default setting). -/
  | memoryByte
deriving DecidableEq, Repr

/-- The parameters that select how the block runs, fixed before reset (R8, R18). Log entry 5. -/
structure Params where
  /-- `INSN_WIDTH`. -/
  widths : InsnWidths
  /-- `OPERAND_SOURCE`. -/
  operandSource : OperandSource
deriving DecidableEq, Repr

end Sys2Proof
end

