-- ==== Sys2Proof/Syntax.lean ====
section
/-! DEFINITION. The closed set of 13 instructions (R64), with the operands of R57, R58 and R66, and the
four pseudo-operations of the assembler (R74). -/

namespace Sys2Proof

/-- The four I/O device slots, indices 0 to 3 (R7, R28). -/
inductive SlotId where
  | slot0 | slot1 | slot2 | slot3
deriving DecidableEq, Repr

/-- The operation types of IO, `t = sub[3:2]` (R66). -/
inductive IoOp where
  /-- `t = 00`: read one byte from the slot into `ACC`. -/
  | read
  /-- `t = 01`: write `ACC` to the slot. -/
  | write
  /-- `t = 10`: enable interrupt, a no-op stub. -/
  | enableInterrupt
  /-- `t = 11`: disable interrupt, a no-op stub. -/
  | disableInterrupt
deriving DecidableEq, Repr

/-- The slot of an IO, `d = sub[1:0]` (R66), and the 8 bits that a two-byte format has above `t ++ d`, which are 0 in the
one-byte format. -/
structure SlotOperand where
  id : SlotId
  high : Byte
deriving DecidableEq, Repr

/-- The instructions of the opcode map (R64), one constructor for each row of the opcode table. An operand has the 12
bits of the two-byte format; in the one-byte format it is a 4-bit `sub`, zero-extended (R63), which `wellFormed`
checks. -/
inductive Instr where
  /-- 0x0 JP: unconditional jump (R84). -/
  | jp (field : Field)
  /-- 0x1 JZ: jump if the accumulator is zero (R85). -/
  | jz (field : Field)
  /-- 0x2 JN: jump if the accumulator is negative (R86). -/
  | jn (field : Field)
  /-- 0x3 CN: control (R87). -/
  | cn (sub : Field)
  /-- 0x4 `+`: add (R89). -/
  | add (field : Field)
  /-- 0x5 `-`: subtract (R90). -/
  | sub (field : Field)
  /-- 0x6 `*`: multiply (R91). -/
  | mul (field : Field)
  /-- 0x7 `/`: floor divide (R92); the opcode table's alias for the mnemonic is `ROW`. -/
  | div (field : Field)
  /-- 0x8 LD: load the accumulator (R93). -/
  | ld (field : Field)
  /-- 0x9 MM: store the accumulator (R94). -/
  | mm (field : Field)
  /-- 0xA SC: subroutine call (R95). -/
  | sc (field : Field)
  /-- 0xB OS: system call (R97). -/
  | os (field : Field)
  /-- 0xC IO: input/output (R98). -/
  | io (op : IoOp) (slot : SlotOperand)
deriving DecidableEq, Repr

/-- The four pseudo-operations `@ $ K #` with their number N (R74). N is an integer here, so that an
out-of-range N is a term the check of `WellFormed.lean` refuses. -/
inductive Pseudo where
  /-- `@ N`: set the origin. -/
  | origin (n : Int)
  /-- `$ N`: reserve N zero bytes. -/
  | reserve (n : Int)
  /-- `K N`: emit one literal byte. -/
  | literal (n : Int)
  /-- `# N`: define the entry vector. -/
  | entry (n : Int)
deriving DecidableEq, Repr

end Sys2Proof
end

