-- ==== Sys2Proof/WellFormed.lean ====
section
/-! DEFINITION. The checks on terms: legal opcodes (R64, R67), instructions (R58, R69), the ranges of the
pseudo-operations (R74), the length of a loader image (R8, D8) and of an object block's payload (R126). -/

namespace Sys2Proof

/-- Opcodes 0x0 to 0xC are assigned, 0xD to 0xF are illegal (R64, R67). -/
def legalOpcode (op : Nibble) : Bool := op.toNat ≤ 0xC

/-- An operand fits the format: a one-byte instruction holds 4 bits of it (R57, R58). -/
def operandFits (w : OpWidth) (operand : Field) : Bool := w == .two || operand.toNat < 16

/-- An instruction is well formed under a setting of `INSN_WIDTH` when its operand fits its format. Nothing else is
checked, since each opcode is legal with EVERY value of its operand field (R69); an unimplemented sub-operand of CN or
OS is not ill-formed (R68). -/
def Instr.wellFormed (ws : InsnWidths) : Instr → Bool
  | .jp f => operandFits ws.jp f
  | .jz f => operandFits ws.jz f
  | .jn f => operandFits ws.jn f
  | .cn s => operandFits ws.cn s
  | .add f => operandFits ws.add f
  | .sub f => operandFits ws.sub f
  | .mul f => operandFits ws.mul f
  | .div f => operandFits ws.div f
  | .ld f => operandFits ws.ld f
  | .mm f => operandFits ws.mm f
  | .sc f => operandFits ws.sc f
  | .os f => operandFits ws.os f
  | .io _ slot => ws.io == .two || slot.high == 0

/-- The range checks of the pseudo-operations' table (R74), each from 0 (D30). -/
def Pseudo.wellFormed : Pseudo → Bool
  | .origin n => 0 ≤ n && n ≤ 0xFFFF
  | .reserve n => 0 ≤ n && n ≤ 0xFFF
  | .literal n => 0 ≤ n && n ≤ 0xFF
  | .entry n => 0 ≤ n && n ≤ 0xFFFF

/-- `LOADER_IMAGE` is a byte sequence of length 0 to 4096 (R8, D8). -/
def loaderImageWellFormed (image : List Byte) : Bool := image.length ≤ Config.bankSize

/-- An object block holds at most 255 payload bytes (R126, R127). -/
def payloadWellFormed (payload : List Byte) : Bool := payload.length ≤ 255

end Sys2Proof
end

