-- ==== Sys2Proof/Decode.lean ====
section
/-! DEFINITION. Decoding bytes (R56 to R69), forming the instruction register (R62, R78), and the encoder
(R57, R58, R64 to R66). -/

namespace Sys2Proof

/-- `hi ++ lo`: the byte at the lower address is the high byte (R13, R40). -/
def wordOf (hi lo : Byte) : Word := hi ++ lo

/-- `w[15:8]` (R13). -/
def highByte (w : Word) : Byte := w.extractLsb' 8 8

/-- `w[7:0]` (R13). -/
def lowByte (w : Word) : Byte := w.extractLsb' 0 8

/-- `w[11:0]`, the low 12 bits (R57, R62, R81). -/
def low12 (w : Word) : Field := w.extractLsb' 0 12

/-- `b0[7:4]`, the opcode of a first byte (R60). -/
def opcodeOf (b0 : Byte) : Nibble := b0.extractLsb' 4 4

/-- `w[11:8]`, the `sub` of a one-byte instruction (R62). -/
def subOf (w : Word) : Nibble := w.extractLsb' 8 4

/-- The bytes of a width (R7). -/
def OpWidth.bytes : OpWidth → Nat
  | .one => 1
  | .two => 2

/-- `INSN_WIDTH` at the default this spec uses: CN (0x3) and IO (0xC) take 1 byte, every other opcode 2 (R8, R59,
D2). -/
def defaultWidths : InsnWidths where
  jp := .two
  jz := .two
  jn := .two
  cn := .one
  add := .two
  sub := .two
  mul := .two
  div := .two
  ld := .two
  mm := .two
  sc := .two
  os := .two
  io := .one

/-- The parameters at the defaults this spec uses (R8, D1, D2). -/
def defaultParams : Params where
  widths := defaultWidths
  operandSource := .resolvedValue

/-- `INSN_WIDTH[op]`; an opcode above 0xC has no width (R60). -/
def InsnWidths.lookup (ws : InsnWidths) (op : Nibble) : Option OpWidth :=
  match op.toNat with
  | 0x0 => some ws.jp
  | 0x1 => some ws.jz
  | 0x2 => some ws.jn
  | 0x3 => some ws.cn
  | 0x4 => some ws.add
  | 0x5 => some ws.sub
  | 0x6 => some ws.mul
  | 0x7 => some ws.div
  | 0x8 => some ws.ld
  | 0x9 => some ws.mm
  | 0xA => some ws.sc
  | 0xB => some ws.os
  | 0xC => some ws.io
  | _ => none

/-- Why bytes are not an instruction. -/
inductive DecodeError where
  /-- The first byte's opcode is 0xD, 0xE or 0xF (R67); safe, the spec's own `ILLEGAL_OPCODE`. -/
  | illegalOpcode (op : Nibble)
  /-- The bytes end before the instruction does; safe, no instruction is read. -/
  | truncated
deriving DecidableEq, Repr

/-- The type of an IO from `sub[3:2]` (R66). -/
def ioOpOf (t : BitVec 2) : IoOp :=
  match t.toNat with
  | 0 => .read
  | 1 => .write
  | 2 => .enableInterrupt
  | _ => .disableInterrupt

/-- The slot of an IO from `sub[1:0]` (R66). -/
def slotIdOf (d : BitVec 2) : SlotId :=
  match d.toNat with
  | 0 => .slot0
  | 1 => .slot1
  | 2 => .slot2
  | _ => .slot3

/-- The contents of `IR` for first byte `b0` and second byte `b1`: a one-byte instruction has a zero low byte and `b1`
is not used (R62, R78). -/
def irOf (w : OpWidth) (b0 b1 : Byte) : Word :=
  match w with
  | .one => wordOf b0 0x00
  | .two => wordOf b0 b1

/-- The operand in `IR`: `field` of a two-byte instruction, `sub` of a one-byte one, zero-extended and never shifted
(R62, R63, R79). For an opcode in the format that is not its default this is the model's reading, log entry 5. -/
def operandOf (w : OpWidth) (ir : Word) : Field :=
  match w with
  | .one => (subOf ir).setWidth 12
  | .two => low12 ir

/-- The instruction of an opcode with an operand (R64, R66). -/
def instrOf (op : Nibble) (x : Field) : Except DecodeError Instr :=
  match op.toNat with
  | 0x0 => .ok (.jp x)
  | 0x1 => .ok (.jz x)
  | 0x2 => .ok (.jn x)
  | 0x3 => .ok (.cn x)
  | 0x4 => .ok (.add x)
  | 0x5 => .ok (.sub x)
  | 0x6 => .ok (.mul x)
  | 0x7 => .ok (.div x)
  | 0x8 => .ok (.ld x)
  | 0x9 => .ok (.mm x)
  | 0xA => .ok (.sc x)
  | 0xB => .ok (.os x)
  | 0xC => .ok (.io (ioOpOf (x.extractLsb' 2 2)) ⟨slotIdOf (x.extractLsb' 0 2), x.extractLsb' 4 8⟩)
  | _ => .error (.illegalOpcode op)

/-- Dispatch of an instruction of width `w` on `IR[15:12]` (R62, R64, R79). -/
def decodeIR (w : OpWidth) (ir : Word) : Except DecodeError Instr := instrOf (ir.extractLsb' 12 4) (operandOf w ir)

/-- The width of the instruction that starts with `b0`, or the refusal of an illegal first byte, which is
told from that byte alone (R60, R67, D21). -/
def widthOf (ws : InsnWidths) (b0 : Byte) : Except DecodeError OpWidth :=
  match ws.lookup (opcodeOf b0) with
  | some w => .ok w
  | none => .error (.illegalOpcode (opcodeOf b0))

/-- The instruction at the head of a list of bytes, and the bytes after it, under a setting of `INSN_WIDTH`. -/
def decode (ws : InsnWidths) : List Byte → Except DecodeError (Instr × List Byte)
  | [] => .error .truncated
  | b0 :: rest =>
    match widthOf ws b0 with
    | .error e => .error e
    | .ok .one => (decodeIR .one (irOf .one b0 0x00)).map fun i => (i, rest)
    | .ok .two =>
      match rest with
      | [] => .error .truncated
      | b1 :: rest' => (decodeIR .two (irOf .two b0 b1)).map fun i => (i, rest')

/-! ### The encoder -/

/-- The opcode of an instruction (R64). -/
def Instr.opcode : Instr → Nibble
  | .jp _ => 0x0
  | .jz _ => 0x1
  | .jn _ => 0x2
  | .cn _ => 0x3
  | .add _ => 0x4
  | .sub _ => 0x5
  | .mul _ => 0x6
  | .div _ => 0x7
  | .ld _ => 0x8
  | .mm _ => 0x9
  | .sc _ => 0xA
  | .os _ => 0xB
  | .io _ _ => 0xC

/-- The width of an instruction under a setting of `INSN_WIDTH` (R59). -/
def Instr.width (ws : InsnWidths) : Instr → OpWidth
  | .jp _ => ws.jp
  | .jz _ => ws.jz
  | .jn _ => ws.jn
  | .cn _ => ws.cn
  | .add _ => ws.add
  | .sub _ => ws.sub
  | .mul _ => ws.mul
  | .div _ => ws.div
  | .ld _ => ws.ld
  | .mm _ => ws.mm
  | .sc _ => ws.sc
  | .os _ => ws.os
  | .io _ _ => ws.io

/-- The 2-bit type of an IO (R66). -/
def ioOpBits : IoOp → BitVec 2
  | .read => 0
  | .write => 1
  | .enableInterrupt => 2
  | .disableInterrupt => 3

/-- The 2-bit slot number of an IO (R66). -/
def slotBits : SlotId → BitVec 2
  | .slot0 => 0
  | .slot1 => 1
  | .slot2 => 2
  | .slot3 => 3

/-- The operand of an instruction: `field`, or `sub` zero-extended (R57, R58, R63, R66). -/
def Instr.operand : Instr → Field
  | .jp f | .jz f | .jn f | .cn f | .add f | .sub f | .mul f | .div f | .ld f | .mm f | .sc f | .os f => f
  | .io t d => d.high ++ (ioOpBits t ++ slotBits d.id)

/-- Opcode over operand in `IR`, masked to the format: 12 bits, or 4 bits over a zero byte (R57, R58, R62, R73). -/
def irWordOf (w : OpWidth) (op : Nibble) (x : Field) : Word :=
  match w with
  | .one => wordOf (op ++ (x.setWidth 4 : Nibble)) 0x00
  | .two => op ++ x

/-- The contents of `IR` while an instruction executes (R62). -/
def Instr.irWord (ws : InsnWidths) (i : Instr) : Word := irWordOf (i.width ws) i.opcode i.operand

/-- The bytes of an instruction word of a width, high byte first (R40, R57, R58). -/
def bytesOf (w : OpWidth) (ir : Word) : List Byte :=
  match w with
  | .one => [highByte ir]
  | .two => [highByte ir, lowByte ir]

/-- The bytes of an instruction under a setting of `INSN_WIDTH` (R57, R58, R73). -/
def encode (ws : InsnWidths) (i : Instr) : List Byte := bytesOf (i.width ws) (i.irWord ws)

/-! ### The host's numbering of an opcode-table word -/

/-- The bytes that a word of the opcode table stands for: a row of 8 bits is one byte (the byte after it zero),
a row of 16 bits is `b0 ++ b1`, stored high byte first (R57). -/
def tableWordBytes (nbits w : Nat) : List Byte :=
  if nbits ≤ 8 then [BitVec.ofNat 8 w, 0] else [BitVec.ofNat 8 (w / 256), BitVec.ofNat 8 w]

/-- The instruction the decoder reads from a word of the opcode table, at the default `INSN_WIDTH`. -/
def decodeTableWord (nbits w : Nat) : Option Instr :=
  match decode defaultWidths (tableWordBytes nbits w) with
  | .ok (i, _) => some i
  | .error _ => none

end Sys2Proof
end

