-- ==== Sys2Proof/Machine/Memory.lean ====
section
/-! DEFINITION. The memory array: 16 banks of 4096 byte cells as ONE list of (address, byte) pairs in canonical
form (R26, R37). The key of cell `off` of bank `b` is the 16-bit address `b ++ off` as a number. -/

namespace Sys2Proof.Machine

/-- The memory array (R26): the cells that do not hold what an unlisted cell reads as. -/
structure Memory where
  cells : List Host.Cell
deriving DecidableEq, Repr

/-- What a cell that is not listed reads as: 0x00, the reset contents of an empty memory (R26, R36, D8). -/
def Memory.unlisted : Byte := 0x00

/-- The first byte listed at an address. -/
def lookupCell : List Host.Cell → Nat → Option Byte
  | [], _ => none
  | (b, v) :: rest, a => if b = a then some v else lookupCell rest a

/-- `Mem(b, off)` at the address `a = b ++ off` (R15, R26). A read has no side effect (R43, R47). -/
def Memory.read (m : Memory) (a : Nat) : Byte := (lookupCell m.cells a).getD Memory.unlisted

/-- A list of cells with `(a, v)` put in address order, in place of what it holds at `a`. -/
def insertCell : List Host.Cell → Nat → Byte → List Host.Cell
  | [], a, v => [(a, v)]
  | (b, w) :: rest, a, v =>
    if a < b then (a, v) :: (b, w) :: rest
    else if a = b then (a, v) :: rest
    else (b, w) :: insertCell rest a v

/-- A list of cells without what it holds at `a`. -/
def eraseCell (cells : List Host.Cell) (a : Nat) : List Host.Cell := cells.filter fun c => c.1 != a

/-- `Mem(b, off) <- v` at the address `a = b ++ off` (R15, R44). -/
def Memory.write (m : Memory) (a : Nat) (v : Byte) : Memory :=
  if v = Memory.unlisted then ⟨eraseCell m.cells a⟩ else ⟨insertCell m.cells a v⟩

/-- The cells of a byte sequence placed from address `a` on, the ones that read as unlisted left out. -/
def imageCells : Nat → List Byte → List Host.Cell
  | _, [] => []
  | a, b :: rest => if b = Memory.unlisted then imageCells (a + 1) rest else (a, b) :: imageCells (a + 1) rest

/-- The memory after reset: every cell 0x00, then `LOADER_IMAGE` from bank 0 offset 0, of which bank 0 takes at
most 4096 bytes (R26, R36, R121, D8). -/
def Memory.ofImage (image : List Byte) : Memory := ⟨imageCells 0 (image.take Config.bankSize)⟩

/-- Every address of the list is at least `lo` and inside the address space, the addresses rise strictly, and no
entry holds what an unlisted cell reads as. -/
def cellsWf : Nat → List Host.Cell → Bool
  | _, [] => true
  | lo, (a, v) :: rest => lo ≤ a && a < Config.memorySize && v != Memory.unlisted && cellsWf (a + 1) rest

/-- The canonical form of the memory array. -/
def Memory.wf (m : Memory) : Bool := cellsWf 0 m.cells

/-- `LOADER_IMAGE` (R8, D8): an OPEN parameter of the spec, whose bytes no source gives. The machine holds an
image in `State.loaderImage` and every rule holds for every image; this is the one `State.reset` starts with: empty,
no program placed (DESIGN CHOICE, unsafe, log entry 1). -/
def residentImage : List Byte := []

end Sys2Proof.Machine
end

