-- ==== Sys2Proof/Machine/State.lean ====
section
/-! DEFINITION. The state of the block as plain data (R18 to R36), the commands of its host port (R11), and the
state right after reset (R36, R121). -/

namespace Sys2Proof.Machine

/-- A bound input byte stream with its read position (R28). -/
structure InStream where
  bytes : List Byte
  pos : Nat
deriving DecidableEq, Repr

/-- `SLOT[s] = (in, out)` (R28): an input stream or none, and an output sink (the bytes written to it so far, oldest
first) or none. -/
structure Slot where
  inp : Option InStream
  out : Option (List Byte)
deriving DecidableEq, Repr

/-- The four I/O device slots (R28). -/
structure Slots where
  slot0 : Slot
  slot1 : Slot
  slot2 : Slot
  slot3 : Slot
deriving DecidableEq, Repr

/-- `VMSTATE` (R31). -/
inductive VmState where
  | idle | loading | running | halted
deriving DecidableEq, Repr

/-- `HALTCAUSE` (R32). -/
inductive HaltCause where
  | none | osHalt | cnHalt | fault | cancelled
deriving DecidableEq, Repr

/-- The fault codes (R103), the spec's own execution-time faults. Taking one is a step of the machine
(`takeFault`), not a stop of the model. -/
inductive FaultCause where
  /-- Code 1: a first byte with opcode 0xD, 0xE or 0xF. -/
  | illegalOpcode
  /-- Code 2: an IO read or write of a slot with no bound stream. -/
  | deviceAbsent
  /-- Code 3: `/` with operand value 0. -/
  | divideByZero
  /-- Code 4: an access at an offset above 0x0FFF. -/
  | bankOverrun
deriving DecidableEq, Repr

/-- `FAULTREC` when it is not empty: the cause and the address of the faulting instruction (R33, R102). -/
structure FaultRecord where
  cause : FaultCause
  addr : Word
deriving DecidableEq, Repr

/-- The kinds of warning with their `info` (R111). -/
inductive Warning where
  | lowWrite (addr : Word)
  | cnUnimplemented (sub : Field)
  | osUnimplemented (field : Field)
deriving DecidableEq, Repr

/-- An event of the diagnostics trace (R12). -/
inductive DiagEvent where
  /-- `warn(kind, info)`. -/
  | warn (w : Warning)
  /-- `dump(acc_signed, acc_unsigned, pc)`. -/
  | dump (accSigned : Int) (accUnsigned : Nat) (pc : Word)
deriving DecidableEq, Repr

/-- How a host command ended (R113). -/
inductive CommandEnd where
  | completed | faulted | cancelled
deriving DecidableEq, Repr

/-- The host command in progress, which R113, R122 to R124 imply (log entry 7). -/
inductive Command where
  /-- No command has been accepted since reset. -/
  | none
  /-- A `load` is in progress, these segments still to come (R123). -/
  | load (rest : List (List Byte))
  /-- A `run` is in progress (R124). -/
  | run
  /-- CN 0 stopped the core: the command stays pending, and only `cancel` or `reset` ends it (R112). -/
  | held
  /-- The last command ended so (R113). -/
  | ended (how : CommandEnd)
deriving DecidableEq, Repr

/-- What the host can do at its ports (R10, R11, R30). -/
inductive HostCommand where
  | reset
  | load (segments : List (List Byte))
  | run
  | cancel
  /-- Bind an input stream, its whole byte sequence given at the binding (D25). -/
  | bindIn (d : SlotId) (bytes : List Byte)
  /-- Bind an output sink, empty at the binding. -/
  | bindOut (d : SlotId)
  | unbindIn (d : SlotId)
  | unbindOut (d : SlotId)
deriving DecidableEq, Repr

/-- Why the MODEL has no step. An execution-time fault of the spec is none of these: see `FaultCause`. -/
inductive Fault where
  /-- Raised by `step` in `idle` when no command is in progress and no host input is due: the core has no step in
  `idle` (R77). Safe: nothing is claimed of such a step. -/
  | noStepInIdle
  /-- Raised by `step` in `halted` when no command is left to end and no host input is due: the core never steps again
  (R77, R101, R112). Safe: nothing is claimed of such a step. -/
  | noStepInHalted
deriving DecidableEq, Repr

/-- Why the model refuses an instruction. -/
inductive Refusal where
  /-- An instruction without a meaning; no arm of `exec` answers so. Safe. -/
  | notModelled (mnemonic : String)
deriving DecidableEq, Repr

/-- The state tuple of R18, and after it the parameters of R8 and the fields of the model's own
(log entries 1, 3 to 7). -/
structure State where
  /-- `ACC` (R19). -/
  acc : Byte
  /-- `PC` (R20). -/
  pc : Word
  /-- `IR` (R21). -/
  ir : Word
  /-- `BANK` (R22). -/
  bank : Nibble
  /-- `IND` (R23). -/
  ind : Bool
  /-- `MEM` (R26). -/
  mem : Memory
  /-- `SLOT[0..3]` (R28). -/
  slots : Slots
  /-- `VMSTATE` (R31). -/
  vmState : VmState
  /-- `HALTCAUSE` (R32). -/
  haltCause : HaltCause
  /-- `FAULTREC`, `none` when empty (R33). -/
  faultRec : Option FaultRecord
  /-- `DIAG`, oldest event first (R34). -/
  diag : List DiagEvent
  /-- The host command in progress (R113, R122 to R124). -/
  command : Command
  /-- `INSN_WIDTH` and `OPERAND_SOURCE`, parameters fixed before reset, which no step writes (R8, R18; log entry 5). -/
  params : Params
  /-- The resident location that reset reads the loader image from (R8, R121). -/
  loaderImage : List Byte
  /-- Host inputs due at the boundaries between steps, earliest first; `none` is a boundary at which the host does
  nothing, and the empty list says so of every boundary from here on (R11, R114). The model's own. -/
  hostIn : List (Option HostCommand)
  /-- How many free values have been drawn. The model's own. -/
  freeCount : Nat
deriving DecidableEq, Repr

/-- The state after the reset sequence of R121 of a block with parameters `params` and loader image `image`; the
console's n-th binding. -/
def State.resetFrom (params : Params) (image : List Byte) (n : Nat) : State where
  acc := 0x00
  pc := 0x0000
  ir := 0x0000
  bank := 0
  ind := false
  mem := Memory.ofImage image
  slots :=
    { slot0 := ⟨some ⟨Config.consoleInput n, 0⟩, some []⟩
      slot1 := ⟨none, none⟩
      slot2 := ⟨none, none⟩
      slot3 := ⟨none, none⟩ }
  vmState := .idle
  haltCause := .none
  faultRec := none
  diag := []
  command := .none
  params := params
  loaderImage := image
  hostIn := []
  freeCount := n

/-- The machine right after reset, the parameters at the defaults the spec uses (R8, R36, R121). -/
def State.reset : State := State.resetFrom defaultParams residentImage 0

end Sys2Proof.Machine
end

