-- ==== Sys2Proof/Machine/Ops.lean ====
section
/-! DEFINITION. The named operations every meaning is built from: number conversions (R13), register updates, the
memory port and its access primitives (R9, R43 to R48), the slot arbiter (R10, R99), what a fetch leaves (R78), and
taking a fault (R83, R101 to R104). A `FaultCause` in `Except` is the spec's `raise FAULT(cause)`. -/

namespace Sys2Proof.Machine

/-! ### Numbers -/

/-- `sval(b)`: the signed value of an 8-bit pattern (R13). -/
def sval (b : Byte) : Int := if b.toNat < 128 then b.toNat else (b.toNat : Int) - 256

/-- `bits_8(n)`: the 8-bit pattern congruent to `n` modulo 256 (R13, R88). -/
def bits8 (n : Int) : Byte := BitVec.ofInt 8 n

/-- `zext_16` of a 12-bit quantity (R13, R63). -/
def zext16 (f : Field) : Word := f.setWidth 16

/-! ### Register updates -/

def State.setAcc (s : State) (v : Byte) : State := { s with acc := v }

def State.setPc (s : State) (v : Word) : State := { s with pc := v }

def State.setInd (s : State) (v : Bool) : State := { s with ind := v }

def State.setMem (s : State) (m : Memory) : State := { s with mem := m }

def State.setSlots (s : State) (v : Slots) : State := { s with slots := v }

def State.setCommand (s : State) (c : Command) : State := { s with command := c }

/-- Events appended to the diagnostics trace (R12, R34). -/
def State.report (s : State) (events : List DiagEvent) : State := { s with diag := s.diag ++ events }

/-- `warn(kind, info)` (R15, R111). -/
def State.warn (s : State) (w : Warning) : State := s.report [.warn w]

/-- `VMSTATE <- halted; HALTCAUSE <- cause` (R31, R32). -/
def State.halt (s : State) (cause : HaltCause) : State := { s with vmState := .halted, haltCause := cause }

/-- The state in which the execute rule of `i` starts (R16, R78): `IR` holds the instruction and `PC` the address of
the next one. -/
def State.fetched (s : State) (i : Instr) : State :=
  { s with ir := i.irWord s.params.widths, pc := s.pc + BitVec.ofNat 16 (i.width s.params.widths).bytes }

/-! ### Memory -/

/-- The 16-bit address `BANK ++ off` of an access (R37). -/
def busAddr (bank : Nibble) (off : Word) : Word := bank ++ low12 off

/-- The memory port's `mem_read(bank, offset)` (R9): an offset above 0x0FFF does not reach the array (R45). -/
def portRead (m : Memory) (bank : Nibble) (off : Word) : Except FaultCause Byte :=
  if Config.lastOffset < off.toNat then .error .bankOverrun else .ok (m.read (busAddr bank off).toNat)

/-- The memory port's `mem_write(bank, offset, byte)` (R9, R45). -/
def portWrite (m : Memory) (bank : Nibble) (off : Word) (v : Byte) : Except FaultCause Memory :=
  if Config.lastOffset < off.toNat then .error .bankOverrun else .ok (m.write (busAddr bank off).toNat v)

/-- `MemRead(off, 1)` (R43). -/
def memRead1 (s : State) (off : Word) : Except FaultCause Byte := portRead s.mem s.bank off

/-- `MemRead(off, 2)`, big-endian, checked in full before anything is read (R40, R43, R46). -/
def memRead2 (s : State) (off : Word) : Except FaultCause Word :=
  if Config.lastOffset < off.toNat + 1 then .error .bankOverrun
  else
    match portRead s.mem s.bank off, portRead s.mem s.bank (off + 1) with
    | .ok h, .ok l => .ok (wordOf h l)
    | .error c, _ => .error c
    | _, .error c => .error c

/-- `BoundaryCheck(a)`: the warning a byte written at address `a` gives, which needs `a < RESERVED_BOUNDARY` and a
state other than `loading` (R48). -/
def boundaryCheck (vm : VmState) (a : Word) : List DiagEvent :=
  if a.toNat < Config.reservedBoundary.toNat ∧ vm ≠ .loading then [.warn (.lowWrite a)] else []

/-- `MemWrite(off, 1, v)` (R44). -/
def memWrite1 (s : State) (off : Word) (v : Byte) : Except FaultCause State :=
  match portWrite s.mem s.bank off v with
  | .error c => .error c
  | .ok m => .ok ((s.setMem m).report (boundaryCheck s.vmState (busAddr s.bank off)))

/-- `MemWrite(off, 2, v)`: the high byte at `off`, checked in full before any byte moves (R40, R44, R46). -/
def memWrite2 (s : State) (off : Word) (v : Word) : Except FaultCause State :=
  if Config.lastOffset < off.toNat + 1 then .error .bankOverrun
  else
    match memWrite1 s off (highByte v) with
    | .error c => .error c
    | .ok t => memWrite1 t (off + 1) (lowByte v)

/-! ### The I/O device slot arbiter -/

/-- `SLOT[d]` (R28). -/
def Slots.get (sl : Slots) : SlotId → Slot
  | .slot0 => sl.slot0
  | .slot1 => sl.slot1
  | .slot2 => sl.slot2
  | .slot3 => sl.slot3

/-- `SLOT[d] <- x` (R28). -/
def Slots.set (sl : Slots) (d : SlotId) (x : Slot) : Slots :=
  match d with
  | .slot0 => { sl with slot0 := x }
  | .slot1 => { sl with slot1 := x }
  | .slot2 => { sl with slot2 := x }
  | .slot3 => { sl with slot3 := x }

/-- The next byte of a stream, or none at its end (EOS, R99). -/
def InStream.next (st : InStream) : Option Byte := st.bytes[st.pos]?

/-- A stream after a read: the position advances past a byte that was there, and is unchanged at the end (R99). -/
def InStream.advanced (st : InStream) : InStream :=
  { st with pos := if st.pos < st.bytes.length then st.pos + 1 else st.pos }

/-- `SlotRead(d)` (R99): the byte read, `none` for EOS, and the state with the stream advanced. -/
def slotRead (s : State) (d : SlotId) : Except FaultCause (Option Byte × State) :=
  match (s.slots.get d).inp with
  | none => .error .deviceAbsent
  | some st => .ok (st.next, s.setSlots (s.slots.set d { s.slots.get d with inp := some st.advanced }))

/-- `SlotWrite(d, b)` (R99). -/
def slotWrite (s : State) (d : SlotId) (b : Byte) : Except FaultCause State :=
  match (s.slots.get d).out with
  | none => .error .deviceAbsent
  | some sink => .ok (s.setSlots (s.slots.set d { s.slots.get d with out := some (sink ++ [b]) }))

/-! ### Taking a fault -/

/-- The number of a fault code (R103). -/
def FaultCause.code : FaultCause → Nat
  | .illegalOpcode => 1
  | .deviceAbsent => 2
  | .divideByZero => 3
  | .bankOverrun => 4

/-- Taking a fault, from the state before the faulting instruction's fetch, whose `PC` is `a0` (R77, R83, R101,
R102): the instruction leaves no effect, `FAULTREC <- (cause, a0)`, the core stops, and `IR` holds an unspecified
value, a fresh free one (log entry 3). There is no return from a fault (R106). -/
def takeFault (c : FaultCause) (s : State) : State :=
  { s with
    ir := Config.freeIR s.freeCount
    freeCount := s.freeCount + 1
    vmState := .halted
    haltCause := .fault
    faultRec := some ⟨c, s.pc⟩ }

/-- CN 1, return from interrupt, the only trap return the spec names: it restores nothing (R106, R107). -/
def returnFromInterrupt (s : State) : State := s

/-- The commit of R83: the whole effect of an instruction that began in `s`, or the fault it raised. -/
def commit (s : State) : Except FaultCause State → Host.Outcome State Fault Refusal
  | .ok t => .next t
  | .error c => .next (takeFault c s)

end Sys2Proof.Machine
end

