-- ==== Sys2Proof/Machine/Operands.lean ====
section
/-! DEFINITION. The two addressing modes, direct and single-shot indirect (R80, R81), and the operand value of
`+ - * / LD` (R82). -/

namespace Sys2Proof.Machine

/-- `Resolve(field)` (R81): the 12-bit effective operand, and the state with `IND` cleared, whether it was set or
not. -/
def resolve (field : Field) (s : State) : Except FaultCause (Field × State) :=
  if s.ind then
    match memRead2 s (zext16 field) with
    | .error c => .error c
    | .ok p => .ok (low12 p, s.setInd false)
  else .ok (field, s.setInd false)

/-- `OperandValue(field)` for each setting of `OPERAND_SOURCE` (R82): an unsigned integer, 0 to 4095 or 0 to 255. -/
def operandValueFrom (src : OperandSource) (field : Field) (s : State) : Except FaultCause (Nat × State) :=
  match resolve field s with
  | .error c => .error c
  | .ok (ea, t) =>
    match src with
    | .resolvedValue => .ok (ea.toNat, t)
    | .memoryByte => (memRead1 t (zext16 ea)).map fun b => (b.toNat, t)

/-- `OperandValue(field)` at the block's `OPERAND_SOURCE` (R8, R82). -/
def operandValue (field : Field) (s : State) : Except FaultCause (Nat × State) :=
  operandValueFrom s.params.operandSource field s

end Sys2Proof.Machine
end

