-- ==== Sys2Proof/Machine/Arithmetic.lean ====
section
/-! DEFINITION. `+`, `-`, `*`, `/` (R88 to R92). -/

namespace Sys2Proof.Machine

/-- The ALU law (R88): the exact integer result of `sval(ACC)` and the unsigned operand value, taken modulo 256. -/
def aluEffect (f : Int → Nat → Except FaultCause Int) (field : Field) (t : State) : Except FaultCause State :=
  match operandValue field t with
  | .error c => .error c
  | .ok (v, u) =>
    match f (sval u.acc) v with
    | .error c => .error c
    | .ok r => .ok (u.setAcc (bits8 r))

/-- `floor(a / v)`, or the fault of a divisor of 0 (R92). -/
def floorDivide (a : Int) (v : Nat) : Except FaultCause Int :=
  if v = 0 then .error .divideByZero else .ok (Int.fdiv a v)

/-- `+` (R89). -/
def execAdd (field : Field) (s : State) : Host.Outcome State Fault Refusal :=
  commit s (aluEffect (fun a v => .ok (a + v)) field (s.fetched (.add field)))

/-- `-` (R90). -/
def execSub (field : Field) (s : State) : Host.Outcome State Fault Refusal :=
  commit s (aluEffect (fun a v => .ok (a - v)) field (s.fetched (.sub field)))

/-- `*` (R91). -/
def execMul (field : Field) (s : State) : Host.Outcome State Fault Refusal :=
  commit s (aluEffect (fun a v => .ok (a * v)) field (s.fetched (.mul field)))

/-- `/` (R92). -/
def execDiv (field : Field) (s : State) : Host.Outcome State Fault Refusal :=
  commit s (aluEffect floorDivide field (s.fetched (.div field)))

end Sys2Proof.Machine
end

