-- ==== Sys2Proof/Machine/Control.lean ====
section
/-! DEFINITION. CN (R87). -/

namespace Sys2Proof.Machine

/-- The four cases of CN, the sub-operand compared in full (R65, R87). -/
def controlEffect (sub : Field) (t : State) : State :=
  match sub.toNat with
  | 0 => t.halt .cnHalt
  | 1 => returnFromInterrupt t
  | 2 => t.setInd true
  | _ => t.warn (.cnUnimplemented sub)

/-- CN (R87). -/
def execCn (sub : Field) (s : State) : Host.Outcome State Fault Refusal :=
  commit s (.ok (controlEffect sub (s.fetched (.cn sub))))

end Sys2Proof.Machine
end

