-- ==== Sys2Proof/Machine/Flags.lean ====
section
/-! DEFINITION. The block has no flags and no condition codes (R24): JZ and JN test `ACC` itself. The two tests. -/

namespace Sys2Proof.Machine

/-- JZ's test: only the pattern 0x00 is zero (R85). -/
def accIsZero (s : State) : Bool := s.acc == 0x00

/-- JN's test: the signed value of `ACC` is negative (R86). -/
def accIsNegative (s : State) : Bool := sval s.acc < 0

/-- JP's condition: always taken (R84). -/
def always (_ : State) : Bool := true

end Sys2Proof.Machine
end

