-- ==== Sys2Proof/Machine/Jumps.lean ====
section
/-! DEFINITION. JP, JZ, JN (R84 to R86). -/

namespace Sys2Proof.Machine

/-- A jump: the operand is resolved first, taken or not, and a taken jump goes to the 12-bit target, zero-extended
(R81, R84 to R86). -/
def jumpEffect (taken : State → Bool) (field : Field) (t : State) : Except FaultCause State :=
  match resolve field t with
  | .error c => .error c
  | .ok (ea, u) => .ok (if taken u then u.setPc (zext16 ea) else u)

/-- JP (R84). -/
def execJp (field : Field) (s : State) : Host.Outcome State Fault Refusal :=
  commit s (jumpEffect always field (s.fetched (.jp field)))

/-- JZ (R85). -/
def execJz (field : Field) (s : State) : Host.Outcome State Fault Refusal :=
  commit s (jumpEffect accIsZero field (s.fetched (.jz field)))

/-- JN (R86). -/
def execJn (field : Field) (s : State) : Host.Outcome State Fault Refusal :=
  commit s (jumpEffect accIsNegative field (s.fetched (.jn field)))

end Sys2Proof.Machine
end

