-- ==== Sys2Proof/Machine/LoadStore.lean ====
section
/-! DEFINITION. LD and MM (R93, R94). -/

namespace Sys2Proof.Machine

/-- `ACC <- bits_8(v)` for the operand value `v` (R93). -/
def loadEffect (field : Field) (t : State) : Except FaultCause State :=
  match operandValue field t with
  | .error c => .error c
  | .ok (v, u) => .ok (u.setAcc (bits8 v))

/-- `Mem(BANK, ea) <- ACC` with the boundary check (R48, R94). -/
def storeEffect (field : Field) (t : State) : Except FaultCause State :=
  match resolve field t with
  | .error c => .error c
  | .ok (ea, u) => memWrite1 u (zext16 ea) u.acc

/-- LD (R93). -/
def execLd (field : Field) (s : State) : Host.Outcome State Fault Refusal :=
  commit s (loadEffect field (s.fetched (.ld field)))

/-- MM (R94). -/
def execMm (field : Field) (s : State) : Host.Outcome State Fault Refusal :=
  commit s (storeEffect field (s.fetched (.mm field)))

end Sys2Proof.Machine
end

