-- ==== Sys2Proof/Machine/Subroutine.lean ====
section
/-! DEFINITION. SC (R95). -/

namespace Sys2Proof.Machine

/-- The return address goes to the slot at `field`, and execution to `field + 2`; `field` is not resolved and `IND`
not touched (R80, R95, D6). -/
def callEffect (field : Field) (t : State) : Except FaultCause State :=
  match memWrite2 t (zext16 field) t.pc with
  | .error c => .error c
  | .ok u => .ok (u.setPc (zext16 field + 2))

/-- SC (R95). -/
def execSc (field : Field) (s : State) : Host.Outcome State Fault Refusal :=
  commit s (callEffect field (s.fetched (.sc field)))

end Sys2Proof.Machine
end

