-- ==== Sys2Proof/Machine/SystemIo.lean ====
section
/-! DEFINITION. OS (R97) and IO (R98). -/

namespace Sys2Proof.Machine

/-- OS 0x00F: the end of a segment in `loading`, the terminal halt otherwise (R97, R113). -/
def osHaltEffect (t : State) : State :=
  if t.vmState = .loading then { t with vmState := .idle } else t.halt .osHalt

/-- The three cases of OS, all 12 bits of `field` compared (R65, R97, D16). -/
def systemCallEffect (field : Field) (t : State) : State :=
  match field.toNat with
  | 0x000 => t.report [.dump (sval t.acc) t.acc.toNat t.pc]
  | 0x00F => osHaltEffect t
  | _ => t.warn (.osUnimplemented field)

/-- The four operation types of IO (R66, R98). A read at end of stream leaves `ACC` as it is. -/
def ioEffect (op : IoOp) (d : SlotId) (t : State) : Except FaultCause State :=
  match op with
  | .read =>
    match slotRead t d with
    | .error c => .error c
    | .ok (r, u) => .ok (u.setAcc (r.getD u.acc))
  | .write => slotWrite t d t.acc
  | .enableInterrupt => .ok t
  | .disableInterrupt => .ok t

/-- OS (R97). -/
def execOs (field : Field) (s : State) : Host.Outcome State Fault Refusal :=
  commit s (.ok (systemCallEffect field (s.fetched (.os field))))

/-- IO (R98); `d.high`, the rest of a two-byte operand, has no effect but in `IR` (log entry 5). -/
def execIo (op : IoOp) (d : SlotOperand) (s : State) : Host.Outcome State Fault Refusal :=
  commit s (ioEffect op d.id (s.fetched (.io op d)))

end Sys2Proof.Machine
end

