-- ==== Sys2Proof/Machine/Dispatch.lean ====
section
/-! DEFINITION. The closed match over the 13 instructions (R64, R79). `exec i s` is one whole instruction `i` that
stands at `s.pc`: the state `s` is the one BEFORE its fetch, and the next state has the fetch's effect in it (R77). -/

namespace Sys2Proof.Machine

def exec (i : Instr) (s : State) : Host.Outcome State Fault Refusal :=
  match i with
  | .jp field => Sys2Proof.Machine.execJp field s
  | .jz field => Sys2Proof.Machine.execJz field s
  | .jn field => Sys2Proof.Machine.execJn field s
  | .cn sub => Sys2Proof.Machine.execCn sub s
  | .add field => Sys2Proof.Machine.execAdd field s
  | .sub field => Sys2Proof.Machine.execSub field s
  | .mul field => Sys2Proof.Machine.execMul field s
  | .div field => Sys2Proof.Machine.execDiv field s
  | .ld field => Sys2Proof.Machine.execLd field s
  | .mm field => Sys2Proof.Machine.execMm field s
  | .sc field => Sys2Proof.Machine.execSc field s
  | .os field => Sys2Proof.Machine.execOs field s
  | .io op slot => Sys2Proof.Machine.execIo op slot s

end Sys2Proof.Machine
end

