-- ==== Sys2Proof/Machine/Fetch.lean ====
section
/-! DEFINITION. Fetching an instruction's bytes (R78). -/

namespace Sys2Proof.Machine

/-- The decoder's refusal as the fault the fetch raises (R67, R78). -/
def faultOfDecode : DecodeError → FaultCause
  | .illegalOpcode _ => .illegalOpcode
  | .truncated => .bankOverrun

/-- The reads of `Fetch()` (R78): the first byte at `PC`, its legality and width by `INSN_WIDTH`, then for a two-byte
instruction both bytes; the value is the width and what `IR` receives. The faults come in the order of R110, points 1
to 3. -/
def fetch (s : State) : Except FaultCause (OpWidth × Word) :=
  match memRead1 s s.pc with
  | .error c => .error c
  | .ok b0 =>
    match widthOf s.params.widths b0 with
    | .error e => .error (faultOfDecode e)
    | .ok .one => .ok (.one, irOf .one b0 0x00)
    | .ok .two =>
      match memRead2 s s.pc with
      | .error c => .error c
      | .ok ir => .ok (.two, ir)

/-- The instruction at `PC`, or the fault that its fetch raises (R78, R79). -/
def fetchInstr (s : State) : Except FaultCause Instr :=
  match fetch s with
  | .error c => .error c
  | .ok (w, ir) =>
    match decodeIR w ir with
    | .error e => .error (faultOfDecode e)
    | .ok i => .ok i

end Sys2Proof.Machine
end

