-- ==== Sys2Proof/Machine/Sequencer.lean ====
section
/-! DEFINITION. The sequencer: the host commands `reset`, `load`, `run`, `cancel` and the binding of slot streams
(R11, R30, R114, R121 to R124), and the steps it takes between a command's start and its end. -/

namespace Sys2Proof.Machine

/-- A host command is in progress (R122). -/
def Command.inProgress : Command → Bool
  | .load _ | .run | .held => true
  | .none | .ended _ => false

/-- `load` and `run` are accepted only in `idle`, one at a time (R122, D27). -/
def acceptsCommand (s : State) : Bool := s.vmState == .idle && !s.command.inProgress

/-- `SLOT[d].in <- x` (R30). -/
def State.setIn (s : State) (d : SlotId) (x : Option InStream) : State :=
  s.setSlots (s.slots.set d { s.slots.get d with inp := x })

/-- `SLOT[d].out <- x` (R30). -/
def State.setOut (s : State) (d : SlotId) (x : Option (List Byte)) : State :=
  s.setSlots (s.slots.set d { s.slots.get d with out := x })

/-- The start of one segment of a `load` (R123): bind slot 1's input, `PC` and `BANK` to 0, enter `loading`. -/
def startSegment (s : State) (seg : List Byte) (rest : List (List Byte)) : State :=
  { s.setIn .slot1 (some ⟨seg, 0⟩) with
    pc := 0x0000
    bank := 0
    vmState := .loading
    command := .load rest }

/-- `load` goes through its segments in order; without a segment left it is done (R123). -/
def nextSegment (s : State) : List (List Byte) → State
  | [] => s.setCommand (.ended .completed)
  | seg :: rest => startSegment s seg rest

/-- `load(segments)` (R122, R123). -/
def hostLoad (segments : List (List Byte)) (s : State) : State :=
  if acceptsCommand s then nextSegment s segments else s

/-- The entry vector: the big-endian word at bank 0, offsets 0x0022 and 0x0023, whatever `BANK` holds (R22, R124). -/
def entryVector (m : Memory) : Word :=
  wordOf (m.read Config.entryVector) (m.read (Config.entryVector + 1))

/-- `run()` (R122, R124). -/
def hostRun (s : State) : State :=
  if acceptsCommand s then { s with pc := entryVector s.mem, vmState := .running, command := .run } else s

/-- What a `load` does with slot 1's input when it leaves the core's loop; a `run` does nothing there (R123, R124). -/
def leaveLoop (s : State) : State :=
  match s.command with
  | .load _ => s.setIn .slot1 none
  | _ => s

/-- `cancel` (R114): outside `halted` it stops the core; in `halted` it changes nothing but the end of a command that
CN 0 left pending. -/
def hostCancel (s : State) : State :=
  if s.vmState = .halted then
    if s.haltCause = .cnHalt ∧ s.command.inProgress then (leaveLoop s).setCommand (.ended .cancelled) else s
  else s.halt .cancelled

/-- The host binds the streams of slots 1 to 3, only in `idle` (R11, R30, D27). That unbinding too is for `idle` only, and
that a binding or unbinding turned away changes nothing, is a DESIGN CHOICE, log entry 8. -/
def mayBind (s : State) (d : SlotId) : Bool := s.vmState == .idle && d != .slot0

/-- `reset` (R121): the reset sequence with the block's parameters and its resident loader image, the
console bound anew. The model's own fields
of the host's inputs and of the free values go on. -/
def hostReset (s : State) : State :=
  { State.resetFrom s.params s.loaderImage (s.freeCount + 1) with hostIn := s.hostIn }

/-- The effect of one host input; a command that is refused changes nothing (R122). -/
def hostCommand (c : HostCommand) (s : State) : State :=
  match c with
  | .reset => hostReset s
  | .load segments => hostLoad segments s
  | .run => hostRun s
  | .cancel => hostCancel s
  | .bindIn d bytes => if mayBind s d then s.setIn d (some ⟨bytes, 0⟩) else s
  | .bindOut d => if mayBind s d then s.setOut d (some []) else s
  | .unbindIn d => if mayBind s d then s.setIn d none else s
  | .unbindOut d => if mayBind s d then s.setOut d none else s

/-- In `idle` with a `load` in progress a segment has just ended: slot 1's input is unbound, and the next segment
starts or the command is done (R113, R123). -/
def segmentDone (s : State) (rest : List (List Byte)) : State := nextSegment (s.setIn .slot1 none) rest

/-- How a command ends when the core halts (R113); CN 0 leaves it pending (R112). -/
def commandAfterHalt : HaltCause → Command
  | .osHalt => .ended .completed
  | .fault => .ended .faulted
  | .cancelled => .ended .cancelled
  | .cnHalt => .held
  | .none => .held

/-- In `halted` with a command that has not seen it: the command leaves its loop, and ends or stays pending (R105,
R113, R123, R124). -/
def commandHalted (s : State) : State := (leaveLoop s).setCommand (commandAfterHalt s.haltCause)

/-- The step the sequencer takes when the core has none, if it has one (R31, R113, R123, R124). -/
def sequencerStep (s : State) : Option State :=
  match s.vmState, s.command with
  | .idle, .load rest => some (segmentDone s rest)
  | .halted, .load _ => some (commandHalted s)
  | .halted, .run => some (commandHalted s)
  | _, _ => none

end Sys2Proof.Machine
end

