-- ==== Sys2Proof/Machine/Step.lean ====
section
/-! DEFINITION. One step of the block: of the host when an input is due, of the core in `loading` and `running`, of
the sequencer otherwise (R6, R11, R77, R114). -/

namespace Sys2Proof.Machine

/-- `Step()` of the core: fetch, dispatch, execute, as one atomic step, a fault taken from the state before the fetch
(R77). -/
def coreStep (s : State) : Host.Outcome State Fault Refusal :=
  match fetchInstr s with
  | .error c => .next (takeFault c s)
  | .ok i => exec i s

/-- The block's own next step: the core's exactly in `loading` and `running` (R77), else the sequencer's. -/
def machineStep (s : State) : Host.Outcome State Fault Refusal :=
  match s.vmState with
  | .loading => coreStep s
  | .running => coreStep s
  | .idle =>
    match sequencerStep s with
    | some t => .next t
    | none => .fault .noStepInIdle
  | .halted =>
    match sequencerStep s with
    | some t => .next t
    | none => .fault .noStepInHalted

/-- The block has a step of its own. -/
def hasStep (s : State) : Bool :=
  s.vmState == .loading || s.vmState == .running || (sequencerStep s).isSome

/-- One step: the next host input takes effect between two steps of the block (R114); at a boundary without an input
the block takes its own step, if it has one. -/
def step (s : State) : Host.Outcome State Fault Refusal :=
  match s.hostIn with
  | [] => machineStep s
  | some c :: rest => .next (hostCommand c { s with hostIn := rest })
  | none :: rest =>
    if hasStep { s with hostIn := rest } then machineStep { s with hostIn := rest } else .next { s with hostIn := rest }

/-- `s` with the instruction of a table word stored at `PC`, the core enabled and no host input due, so that the next
step fetches and runs it. A `PC` at which two bytes do not fit in the bank is set to 0; `loading` stays, every other
`VMSTATE` becomes `running`. -/
def State.withFetchWord (s : State) (nbits w : Nat) : State :=
  let pc : Word := if s.pc.toNat + 1 ≤ Config.lastOffset then s.pc else 0
  let bytes := tableWordBytes nbits w
  { s with
    pc := pc
    mem := (s.mem.write (busAddr s.bank pc).toNat (bytes.getD 0 0)).write (busAddr s.bank (pc + 1)).toNat (bytes.getD 1 0)
    vmState := if s.vmState = .loading then .loading else .running
    hostIn := [] }

end Sys2Proof.Machine
end

