-- ==== Sys2Proof/Machine/ObjectBlock.lean ====
section
/-! DEFINITION. The object block format, the byte stream of a segment that the resident loader consumes (R126 to
R128). The block itself computes and checks none of it (R128, D26): the format is the contract of the segments that
`load` is given. -/

namespace Sys2Proof.Machine

/-- A chunk of a program: its start address and its bytes (R126). -/
structure ObjectBlock where
  start : Word
  payload : List Byte
deriving DecidableEq, Repr

/-- `0xFF XOR p[0] XOR ... XOR p[L-1]` (R128). -/
def checksum (payload : List Byte) : Byte := payload.foldl (fun c p => c ^^^ p) 0xFF

/-- The stream of one object block: start address, length, payload, checksum (R126). -/
def ObjectBlock.bytes (b : ObjectBlock) : List Byte :=
  [highByte b.start, lowByte b.start, BitVec.ofNat 8 b.payload.length] ++ b.payload ++ [checksum b.payload]

/-- One object block read from the head of a stream: the block, the checksum byte that follows its payload, and the
bytes after it; the checksum is not verified (R126, R128). -/
def readBlock : List Byte → Option (ObjectBlock × Byte × List Byte)
  | hi :: lo :: len :: rest =>
    match rest.drop len.toNat with
    | [] => none
    | c :: after => some (⟨wordOf hi lo, rest.take len.toNat⟩, c, after)
  | _ => none

/-- `splitPayload` with a bound on the number of blocks. -/
def splitWithin : Nat → Word → List Byte → List ObjectBlock
  | 0, _, _ => []
  | n + 1, start, bytes =>
    match bytes with
    | [] => []
    | _ :: _ => ⟨start, bytes.take 255⟩ :: splitWithin n (start + BitVec.ofNat 16 (bytes.take 255).length) (bytes.drop 255)

/-- A byte sequence cut into chunks of at most 255 bytes with contiguous start addresses (R127). -/
def splitPayload (start : Word) (bytes : List Byte) : List ObjectBlock := splitWithin bytes.length start bytes

end Sys2Proof.Machine
end

