-- ==== Sys2Proof/Machine/Assembler.lean ====
section
/-! DEFINITION. The assembler's syntax and encoding, the contract that fixes the bytes of an SdP program (R4, R70 to
R76). A source line is a list of characters; the text of an error message is no part of it (R5). -/

namespace Sys2Proof.Machine

/-- A run of characters between white space (R70). -/
abbrev Token := List Char

/-- The assembly-time errors (R70, R75, R76), each fatal at its first occurrence. -/
inductive AsmError where
  | nonAscii
  | malformedLine
  | bareLabel
  | unknownMnemonic
  | labelAsOperation
  | operationAsLabel
  | nonInteger
  | outOfRange
  | duplicateLabel
  | undefinedLabel
  /-- A line other than `@` between a `#` and the next `@` (R75, D30). -/
  | afterEntryVector
deriving DecidableEq, Repr

/-- What the operation token of a line names: one of the 13 opcodes or a pseudo-operation (R71, R74). -/
inductive Operation where
  | real (op : Nibble)
  | origin
  | reserve
  | literal
  | entry
deriving DecidableEq, Repr

/-- An operand after its parse (R72). -/
inductive Operand where
  | number (n : Int)
  | label (name : Token) (offset : Int)
deriving DecidableEq, Repr

/-- A source line that is not blank and not a comment (R70). -/
structure SourceLine where
  label : Option Token
  op : Operation
  operand : Operand
deriving DecidableEq, Repr

/-! ### Lines and tokens (R70, R71) -/

def isSpace (c : Char) : Bool := c == ' ' || c == '\t' || c == '\r'

/-- The tokens of a text, `cur` being the token that is being read, last character first. -/
def tokensFrom : Token → List Char → List Token
  | cur, [] => if cur = [] then [] else [cur.reverse]
  | cur, c :: rest =>
    if isSpace c then (if cur = [] then tokensFrom [] rest else cur.reverse :: tokensFrom [] rest)
    else tokensFrom (c :: cur) rest

/-- The tokens of a line without its comment (R70, D30). -/
def tokensOf (line : List Char) : List Token := tokensFrom [] (line.takeWhile fun c => c != ';')

/-- The operation a token names (R64, R71, R74), in the upper case of the tables: DESIGN CHOICE, log entry 17. -/
def operationOf (t : Token) : Option Operation :=
  match t with
  | ['J', 'P'] => some (.real 0x0)
  | ['J', 'Z'] => some (.real 0x1)
  | ['J', 'N'] => some (.real 0x2)
  | ['C', 'N'] => some (.real 0x3)
  | ['+'] => some (.real 0x4)
  | ['-'] => some (.real 0x5)
  | ['*'] => some (.real 0x6)
  | ['/'] => some (.real 0x7)
  | ['L', 'D'] => some (.real 0x8)
  | ['M', 'M'] => some (.real 0x9)
  | ['S', 'C'] => some (.real 0xA)
  | ['O', 'S'] => some (.real 0xB)
  | ['I', 'O'] => some (.real 0xC)
  | ['@'] => some .origin
  | ['$'] => some .reserve
  | ['K'] => some .literal
  | ['#'] => some .entry
  | _ => none

/-! ### Operands (R72) -/

def decDigit (c : Char) : Option Nat := if '0' ≤ c ∧ c ≤ '9' then some (c.toNat - 48) else none

def hexDigit (c : Char) : Option Nat :=
  if '0' ≤ c ∧ c ≤ '9' then some (c.toNat - 48)
  else if 'A' ≤ c ∧ c ≤ 'F' then some (c.toNat - 55)
  else if 'a' ≤ c ∧ c ≤ 'f' then some (c.toNat - 87)
  else none

/-- The number that a non-empty run of digits writes in a radix. -/
def parseDigits (radix : Nat) (digit : Char → Option Nat) (t : Token) : Option Nat :=
  if t = [] then none
  else t.foldl (fun n c => n.bind fun n => (digit c).map fun d => n * radix + d) (some 0)

/-- A decimal integer, which may be negative (R72). A leading plus sign makes no decimal, so `+5` is read as the name of
a label, and leading zeros count for nothing: DESIGN CHOICE, log entry 18, since the spec says only that a decimal may be
negative. -/
def parseDecimal : Token → Option Int
  | '-' :: t => (parseDigits 10 decDigit t).map fun n => -(n : Int)
  | t => (parseDigits 10 decDigit t).map fun n => (n : Int)

/-- `LABEL`, `LABEL+N` or `LABEL-N` (R72): N is the run of decimal digits at the end, after a sign. -/
def parseLabelExpr (t : Token) : Operand :=
  let digits := (t.reverse.takeWhile fun c => (decDigit c).isSome).reverse
  match t.reverse.drop digits.length, parseDigits 10 decDigit digits with
  | '+' :: c :: name, some n => .label (c :: name).reverse n
  | '-' :: c :: name, some n => .label (c :: name).reverse (-(n : Int))
  | _, _ => .label t 0

/-- The order of R72: decimal, else `/` and hexadecimal, else a label expression. The hexadecimal part is digits
without a sign, and a `/` with anything else after it is an error: DESIGN CHOICE, log entry 18. -/
def parseOperand (t : Token) : Except AsmError Operand :=
  match parseDecimal t with
  | some n => .ok (.number n)
  | none =>
    match t with
    | '/' :: digits =>
      match parseDigits 16 hexDigit digits with
      | some n => .ok (.number n)
      | none => .error .nonInteger
    | _ => .ok (parseLabelExpr t)

/-! ### One line (R70, R76) -/

/-- The operation of a line; a token that names none is an error, one of its own if it is a label. -/
def parseOperation (isLabel : Token → Bool) (t : Token) : Except AsmError Operation :=
  match operationOf t with
  | some op => .ok op
  | none => if isLabel t then .error .labelAsOperation else .error .unknownMnemonic

/-- The token count decides the form of a line: 0 a comment or blank line, 1 an error, 2 operation and operand, 3
label, operation and operand, more an error (R70, C10). -/
def parseLine (isLabel : Token → Bool) (line : List Char) : Except AsmError (Option SourceLine) :=
  if line.any fun c => 127 < c.toNat then .error .nonAscii
  else
    match tokensOf line with
    | [] => .ok none
    | [_] => .error .bareLabel
    | [o, x] => do
      let op ← parseOperation isLabel o
      let operand ← parseOperand x
      .ok (some ⟨none, op, operand⟩)
    | [l, o, x] => do
      if (operationOf l).isSome then .error .operationAsLabel
      let op ← parseOperation isLabel o
      let operand ← parseOperand x
      .ok (some ⟨some l, op, operand⟩)
    | _ => .error .malformedLine

/-- The labels that a source declares. -/
def declaredLabels (source : List (List Char)) : List Token :=
  source.filterMap fun line =>
    match tokensOf line with
    | [l, _, _] => some l
    | _ => none

/-! ### Addresses and bytes (R73 to R75) -/

/-- The bytes of a real operation: the operand masked to 4 or 12 bits by its width, the high byte first (R73); none for
an opcode that no mnemonic names. -/
def encodeReal (ws : InsnWidths) (op : Nibble) (n : Int) : List Byte :=
  match ws.lookup op with
  | some w => bytesOf w (irWordOf w op (BitVec.ofInt 12 n))
  | none => []

/-- How far a real operation advances the counter (R75). -/
def realLength (ws : InsnWidths) (op : Nibble) : Nat := ((ws.lookup op).map OpWidth.bytes).getD 0

/-- A pseudo-operation with its number, in its range (R74); a label is no number here (R76). -/
def checkedPseudo (mk : Int → Pseudo) : Operand → Except AsmError Nat
  | .label _ _ => .error .nonInteger
  | .number n => if (mk n).wellFormed then .ok n.toNat else .error .outOfRange

/-- Pass 1: the instruction counter, whether a `#` has come since the last `@`, and the labels bound so far. -/
structure Layout where
  counter : Nat
  afterEntry : Bool
  labels : List (Token × Nat)
deriving DecidableEq, Repr

/-- The address of a label. Names are compared exactly, so the case of letters counts: DESIGN CHOICE, log entry 17, since
the spec leaves it open (N17, U18). -/
def labelAddress (labels : List (Token × Nat)) (name : Token) : Option Nat := labels.lookup name

/-- A line's label is bound to the counter at the start of the line; then the line advances the counter (R74, R75). -/
def layoutLine (ws : InsnWidths) (st : Layout) (line : SourceLine) : Except AsmError Layout := do
  if st.afterEntry ∧ (line.label.isSome ∨ line.op ≠ .origin) then .error .afterEntryVector
  let labels ←
    match line.label with
    | none => .ok st.labels
    | some l => if (labelAddress st.labels l).isSome then .error .duplicateLabel else .ok ((l, st.counter) :: st.labels)
  match line.op with
  | .real op => .ok ⟨st.counter + realLength ws op, st.afterEntry, labels⟩
  | .origin => do .ok ⟨← checkedPseudo .origin line.operand, false, labels⟩
  | .reserve => do .ok ⟨st.counter + (← checkedPseudo .reserve line.operand), st.afterEntry, labels⟩
  | .literal => do
    let _ ← checkedPseudo .literal line.operand
    .ok ⟨st.counter + 1, st.afterEntry, labels⟩
  | .entry => do
    let _ ← checkedPseudo .entry line.operand
    .ok ⟨st.counter, true, labels⟩

/-- Pass 2: the chunk that is open, its start and its bytes, and the chunks closed so far (R74). -/
structure Emission where
  start : Nat
  bytes : List Byte
  chunks : List (Nat × List Byte)
deriving DecidableEq, Repr

/-- Close the open chunk; an empty one leaves nothing (R74). -/
def Emission.flush (e : Emission) : Emission :=
  if e.bytes = [] then e else { e with bytes := [], chunks := e.chunks ++ [(e.start, e.bytes)] }

def Emission.emit (e : Emission) (bytes : List Byte) : Emission := { e with bytes := e.bytes ++ bytes }

/-- The integer an operand stands for (R72). -/
def operandNumber (labels : List (Token × Nat)) : Operand → Except AsmError Int
  | .number n => .ok n
  | .label name offset =>
    match labelAddress labels name with
    | some a => .ok (a + offset)
    | none => .error .undefinedLabel

/-- The bytes of a line (R73, R74). -/
def emitLine (ws : InsnWidths) (labels : List (Token × Nat)) (e : Emission) (line : SourceLine) : Except AsmError Emission :=
  match line.op with
  | .real op => do .ok (e.emit (encodeReal ws op (← operandNumber labels line.operand)))
  | .origin => do .ok { e.flush with start := ← checkedPseudo .origin line.operand }
  | .reserve => do .ok (e.emit (List.replicate (← checkedPseudo .reserve line.operand) 0))
  | .literal => do .ok (e.emit [BitVec.ofNat 8 (← checkedPseudo .literal line.operand)])
  | .entry => do
    let n ← checkedPseudo .entry line.operand
    let vector := BitVec.ofNat 16 n
    .ok { e.flush with chunks := e.flush.chunks ++ [(Config.entryVector, [highByte vector, lowByte vector])] }

/-- A pass over numbered lines; an error carries the number of its line (R76). -/
def overLines {α σ : Type} (f : σ → α → Except AsmError σ) : σ → List (Nat × α) → Except (Nat × AsmError) σ
  | st, [] => .ok st
  | st, (n, x) :: rest =>
    match f st x with
    | .error e => .error (n, e)
    | .ok st' => overLines f st' rest

/-- The lines of a source that hold an operation, with their numbers from 1. -/
def parseSource (source : List (List Char)) : Except (Nat × AsmError) (List (Nat × SourceLine)) :=
  let labels := declaredLabels source
  let add (acc : List (Nat × SourceLine)) (nl : Nat × List Char) : Except AsmError (List (Nat × SourceLine)) :=
    match parseLine (fun t => labels.contains t) nl.2 with
    | .error e => .error e
    | .ok none => .ok acc
    | .ok (some l) => .ok (acc ++ [(nl.1, l)])
  overLines add [] ((source.zipIdx 1).map fun p => (p.2, p.2, p.1))

/-- The object blocks of a program, in source order, under a setting of `INSN_WIDTH` (R70 to R76, R127). -/
def assemble (ws : InsnWidths) (source : List (List Char)) : Except (Nat × AsmError) (List ObjectBlock) := do
  let lines ← parseSource source
  let layout ← overLines (layoutLine ws) ⟨0, false, []⟩ lines
  let out ← overLines (emitLine ws layout.labels) ⟨0, [], []⟩ lines
  .ok (out.flush.chunks.flatMap fun c => splitPayload (BitVec.ofNat 16 c.1) c.2)

/-- The segments that `load` is given: one object block each (R126). -/
def segments (ws : InsnWidths) (source : List (List Char)) : Except (Nat × AsmError) (List (List Byte)) :=
  (assemble ws source).map fun blocks => blocks.map ObjectBlock.bytes

end Sys2Proof.Machine
end

