-- ==== Sys2Proof/Safety.lean ====
section
/-! DEFINITION. The terms that claims about the machine use: when the core executes, what an operand resolves to, the
table of `VMSTATE` transitions, and the invariant of the machine. -/

namespace Sys2Proof.Machine

/-- The core executes instructions: `loading` or `running`, and no host input is due (R31, R77). -/
def State.executing (s : State) : Prop := s.hostIn = [] ∧ (s.vmState = .loading ∨ s.vmState = .running)

/-- The byte of the current bank at an offset (R15, R37): the key of cell `off` of bank `b` is `4096 * b + off`. -/
def State.byteAt (s : State) (off : Nat) : Byte := s.mem.read (Config.bankSize * s.bank.toNat + off)

/-- The effective operand by R81, from the bytes of the pointer: none where the pointer would lie past the bank. -/
def effectiveOperand (s : State) (field : Field) : Option Field :=
  if s.ind then
    if field = 0xFFF then none
    else some (low12 (wordOf (s.byteAt field.toNat) (s.byteAt (field.toNat + 1))))
  else some field

/-- The unsigned operand value that a resolved operand stands for under the block's `OPERAND_SOURCE` (R82). -/
def State.valueAt (s : State) (ea : Field) : Nat :=
  match s.params.operandSource with
  | .resolvedValue => ea.toNat
  | .memoryByte => (s.byteAt ea.toNat).toNat

/-- The operand value of `+ - * / LD` (R82): none where the pointer would lie past the bank. -/
def effectiveValue (s : State) (field : Field) : Option Nat := (effectiveOperand s field).map s.valueAt

/-- What `IR` holds while an instruction executes: opcode over `field`, or opcode over the 4-bit `sub` over a zero byte
(R57, R58, R62). -/
def State.irFor (s : State) (op : Nibble) (operand : Field) : Word :=
  if s.params.widths.lookup op = some .one then (op ++ (operand.setWidth 4 : Nibble) : Byte) ++ 0x00#8 else op ++ operand

/-- The address after an instruction of opcode `op` at `PC` (R59, R78). -/
def State.pcAfter (s : State) (op : Nibble) : Word :=
  if s.params.widths.lookup op = some .one then s.pc + 1 else s.pc + 2

/-- The resolving instructions (R80). -/
def resolves : Instr → Bool
  | .jp _ | .jz _ | .jn _ | .add _ | .sub _ | .mul _ | .div _ | .ld _ | .mm _ => true
  | .cn _ | .sc _ | .os _ | .io _ _ => false

/-- At the default `INSN_WIDTH` the instruction is `opcode` over `field` in two bytes, the high byte first (R57, R59). -/
def encodesW2 (i : Instr) (op : Nibble) (field : Field) : Prop :=
  encode defaultWidths i = [highByte (op ++ field), lowByte (op ++ field)]

/-- At the default `INSN_WIDTH` the instruction is the one byte `opcode` over `sub` (R58, R59). -/
def encodesW1 (i : Instr) (op : Nibble) (sub : Nibble) : Prop := encode defaultWidths i = [op ++ sub]

/-- An instruction or the host stopped the machine with a fault (R101). -/
def State.faulted (s : State) : Prop := s.vmState = .halted ∧ s.haltCause = .fault

/-- The transition table of `VMSTATE` without the reset row (R31). -/
def vmTransition : VmState → VmState → Bool
  | .idle, .idle => true
  | .idle, .loading => true
  | .idle, .running => true
  | .idle, .halted => true
  | .loading, .loading => true
  | .loading, .idle => true
  | .loading, .halted => true
  | .running, .running => true
  | .running, .halted => true
  | .halted, .halted => true
  | .loading, .running => false
  | .running, .idle => false
  | .running, .loading => false
  | .halted, .idle => false
  | .halted, .loading => false
  | .halted, .running => false

/-- A state in which a program may be started as the boot premise asks (R130, D31). -/
def State.bootReady (s : State) : Prop := acceptsCommand s = true ∧ s.ind = false

/-- The read position of a bound stream is inside the stream or at its end (R28, R99). -/
def Slot.positioned (x : Slot) : Prop := ∀ st, x.inp = some st → st.pos ≤ st.bytes.length

/-- What holds of the machine from reset on. -/
structure State.Inv (s : State) : Prop where
  /-- The memory keeps its canonical form. -/
  memory : s.mem.wf = true
  /-- `BANK` is 0 in every run (R22). -/
  bank : s.bank = 0
  /-- Every cell of banks 1 to 15 keeps its reset value (R27). -/
  upperBanks : ∀ a, Config.bankSize ≤ a → s.mem.read a = 0x00
  /-- `HALTCAUSE` is written only on entry to `halted`, and `none` until then (R32). -/
  haltCause : s.vmState = .halted ↔ s.haltCause ≠ .none
  /-- `FAULTREC` is filled exactly by a fault (R33). -/
  faultRecord : s.faultRec.isSome = true ↔ s.haltCause = .fault
  /-- Slot 0 stays bound to the host console (R29, R30). -/
  console : s.slots.slot0.inp.isSome = true ∧ s.slots.slot0.out.isSome = true
  /-- Every read position is inside its stream or at its end (R28, R99). -/
  streams : ∀ d, (s.slots.get d).positioned
  /-- `loading` is entered and left only by the host's `load` (R115). -/
  loading : s.vmState = .loading → ∃ rest, s.command = .load rest
  /-- `running` is entered by `run` (R31). -/
  running : s.vmState = .running → s.command = .run

end Sys2Proof.Machine
end

