-- ==== Sys2Proof/Certificates/Slice0/Obligations.lean ====
section
/-! DEFINITION. The statements about the machine, one definition each; none of them is about a program. -/

open Sys2Proof Sys2Proof.Machine

/-! ### Encoding -/

/-- At the default `INSN_WIDTH` words written out from the encodings of R64 to R66 decode to the instructions they stand for. -/
def Obligations.DecodeWordsOfTheSpec : Prop :=
  decode defaultWidths [0x02, 0x0A] = .ok (.jp 0x20A, []) ∧
  decode defaultWidths [0x12, 0x0A] = .ok (.jz 0x20A, []) ∧
  decode defaultWidths [0x24, 0x16] = .ok (.jn 0x416, []) ∧
  decode defaultWidths [0x32] = .ok (.cn 2, []) ∧
  decode defaultWidths [0x40, 0x05] = .ok (.add 0x005, []) ∧
  decode defaultWidths [0x8F, 0xF9] = .ok (.ld 0xFF9, []) ∧
  decode defaultWidths [0x93, 0x00] = .ok (.mm 0x300, []) ∧
  decode defaultWidths [0xA4, 0x10] = .ok (.sc 0x410, []) ∧
  decode defaultWidths [0xB0, 0x0F] = .ok (.os 0x00F, []) ∧
  decode defaultWidths [0xC6] = .ok (.io .write ⟨.slot2, 0⟩, []) ∧
  decode defaultWidths [0xD0, 0x00] = .error (.illegalOpcode 0xD)

/-- Decoding the encoding of any well-formed instruction, whatever bytes follow it, gives that instruction and leaves
those bytes, under every setting of `INSN_WIDTH`. What an opcode's operand is in the format that is not its default is
the model's choice, log entry 5. -/
def Obligations.DecodeOfEncode : Prop :=
  ∀ (ws : InsnWidths) (i : Instr) (rest : List Byte), i.wellFormed ws = true →
    decode ws (encode ws i ++ rest) = .ok (i, rest)

/-- Bytes that decode to an instruction are the encoding of a well-formed one followed by the bytes left: no bit is
ignored, under every setting of `INSN_WIDTH` (R69). What an opcode's operand is in the format that is not its default is
the model's choice, log entry 5. -/
def Obligations.EncodeOfDecode : Prop :=
  ∀ (ws : InsnWidths) (bytes rest : List Byte) (i : Instr), decode ws bytes = .ok (i, rest) →
    i.wellFormed ws = true ∧ bytes = encode ws i ++ rest

/-- Only the first bytes 0xD0 to 0xFF are illegal, and they are refused whatever follows; every other pair of bytes
begins with an instruction, under every setting of `INSN_WIDTH` (R67, R69). -/
def Obligations.IllegalFirstBytesAreD0ToFF : Prop :=
  ∀ (ws : InsnWidths) (b0 b1 : Byte) (rest : List Byte),
    (0xD0 ≤ b0.toNat → ∀ more, decode ws (b0 :: more) = .error (.illegalOpcode (opcodeOf b0))) ∧
    (b0.toNat < 0xD0 → ∃ i after, decode ws (b0 :: b1 :: rest) = .ok (i, after))

/-- A real operation assembled from any integer operand decodes to its opcode with the operand masked to its format
(R73). What an opcode's operand is in the format that is not its default is the model's choice, log entry 5. -/
def Obligations.AssembledOperationDecodes : Prop :=
  ∀ (ws : InsnWidths) (op : Nibble) (n : Int), legalOpcode op = true →
    ∃ i, decode ws (encodeReal ws op n) = .ok (i, []) ∧ i.opcode = op ∧
      i.operand = if ws.lookup op = some .one then (BitVec.ofInt 4 n).setWidth 12 else BitVec.ofInt 12 n

/-- The parameters after reset and what they mean: CN and IO take 1 byte and every other opcode 2, and the operand value
is the resolved operand itself (R8, R59, R82). -/
def Obligations.DefaultParameters : Prop :=
  State.reset.params = defaultParams ∧
  ∀ s : State, s.params = defaultParams →
    (∀ op : Nibble, legalOpcode op = true → op = 0x3 ∨ op = 0xC → s.pcAfter op = s.pc + 1 ∧
      ∀ sub : Nibble, s.irFor op (sub.setWidth 12) = (op ++ sub : Byte) ++ 0x00#8) ∧
    (∀ op : Nibble, legalOpcode op = true → op ≠ 0x3 → op ≠ 0xC →
      s.pcAfter op = s.pc + 2 ∧ ∀ field : Field, s.irFor op field = op ++ field) ∧
    ∀ ea : Field, s.valueAt ea = ea.toNat

/-! ### The core's step -/

/-- Where the bytes at `PC` decode to an instruction that lies within the bank, the step is that instruction. Nothing
is added around it: `exec` itself moves `PC` past the instruction and fills `IR`. -/
def Obligations.StepRunsDecodedInstruction : Prop :=
  ∀ (s : State) (i : Instr) (rest : List Byte), s.executing →
    decode s.params.widths [s.byteAt s.pc.toNat, s.byteAt (s.pc.toNat + 1)] = .ok (i, rest) →
    s.pc.toNat + (i.width s.params.widths).bytes ≤ 4096 → step s = exec i s

/-- The faults of a fetch, in the order of R110, points 1 to 3. -/
def Obligations.FetchFaultsInOrder : Prop :=
  ∀ s : State, s.executing →
    (0x0FFF < s.pc.toNat → step s = .next (takeFault .bankOverrun s)) ∧
    (s.pc.toNat ≤ 0x0FFF → 0xD0 ≤ (s.byteAt s.pc.toNat).toNat → step s = .next (takeFault .illegalOpcode s)) ∧
    (s.pc.toNat = 0x0FFF → s.params.widths.lookup (opcodeOf (s.byteAt s.pc.toNat)) = some .two →
      step s = .next (takeFault .bankOverrun s))

/-- With no host input due, and in `idle` and `halted` no command left for the sequencer to carry on, the block has a
step exactly when the core is in `loading` or `running` (R77). That the model answers a stop where the block has no step,
and what it carries on for a command, are its own choices, log entries 10 and 7. -/
def Obligations.CoreStepsExactlyInLoadingAndRunning : Prop :=
  ∀ s : State, s.hostIn = [] → (s.vmState = .idle → ∀ left, s.command ≠ .load left) →
    (s.vmState = .halted → s.command ≠ .run ∧ ∀ left, s.command ≠ .load left) →
    ((∃ t, step s = .next t) ↔ s.vmState = .loading ∨ s.vmState = .running)

/-- A byte that MM stores at the next `PC` is the byte the next step fetches: a one-byte instruction stored there runs
(R54, R134). -/
def Obligations.StoreIsFetchedByTheNextStep : Prop :=
  ∀ (s : State) (field : Field) (i : Instr), s.executing → s.ind = false → field.toNat = (s.pcAfter 0x9).toNat →
    i.wellFormed s.params.widths = true → encode s.params.widths i = [s.acc] → ∃ t, exec (.mm field) s = .next t ∧ step t = exec i t

/-! ### Faults -/

/-- Taking a fault: the cause and the address of the instruction are recorded, the core halts, and every other register,
the memory, the slots and the trace stay; only `IR` is left unspecified (R83, R101, R102). That the command, the
parameters, the loader image and the host inputs stay in this step is said of the model's own fields, log entries 7, 5,
1 and 6: the command in progress ends with the fault (R105) in the sequencer's next step, by log entry 7. The unspecified
`IR` is a free value, log entry 3. -/
def Obligations.FaultTakenState : Prop :=
  ∀ (c : FaultCause) (s : State),
    (takeFault c s).faultRec = some ⟨c, s.pc⟩ ∧ (takeFault c s).vmState = .halted ∧ (takeFault c s).haltCause = .fault ∧
    (takeFault c s).acc = s.acc ∧ (takeFault c s).pc = s.pc ∧ (takeFault c s).bank = s.bank ∧
    (takeFault c s).ind = s.ind ∧ (takeFault c s).mem = s.mem ∧ (takeFault c s).slots = s.slots ∧
    (takeFault c s).diag = s.diag ∧ (takeFault c s).command = s.command ∧ (takeFault c s).params = s.params ∧
    (takeFault c s).loaderImage = s.loaderImage ∧ (takeFault c s).hostIn = s.hostIn

/-- Every step of the core that ends in a fault leaves exactly the state of `takeFault` on the state before its fetch
(R83, R104). -/
def Obligations.FaultsArePrecise : Prop :=
  ∀ s t : State, s.executing → s.haltCause ≠ .fault → step s = .next t → t.haltCause = .fault →
    ∃ c, t = takeFault c s

/-! ### Jumps -/

/-- JP (R84). -/
def Obligations.JpRule : Prop :=
  ∀ (s : State) (field : Field),
    encodesW2 (.jp field) 0x0 field ∧
    (∀ ea, effectiveOperand s field = some ea →
      exec (.jp field) s =
        .next { s with ir := s.irFor 0x0 field, ind := false, pc := ea.setWidth 16 }) ∧
    (effectiveOperand s field = none → exec (.jp field) s = .next (takeFault .bankOverrun s))

/-- JZ (R85). -/
def Obligations.JzRule : Prop :=
  ∀ (s : State) (field : Field),
    encodesW2 (.jz field) 0x1 field ∧
    (∀ ea, effectiveOperand s field = some ea →
      exec (.jz field) s =
        .next { s with
          ir := s.irFor 0x1 field, ind := false
          pc := if s.acc = 0x00 then ea.setWidth 16 else s.pcAfter 0x1 }) ∧
    (effectiveOperand s field = none → exec (.jz field) s = .next (takeFault .bankOverrun s))

/-- JN (R86). -/
def Obligations.JnRule : Prop :=
  ∀ (s : State) (field : Field),
    encodesW2 (.jn field) 0x2 field ∧
    (∀ ea, effectiveOperand s field = some ea →
      exec (.jn field) s =
        .next { s with
          ir := s.irFor 0x2 field, ind := false
          pc := if s.acc.toInt < 0 then ea.setWidth 16 else s.pcAfter 0x2 }) ∧
    (effectiveOperand s field = none → exec (.jn field) s = .next (takeFault .bankOverrun s))

/-! ### Control -/

/-- CN in its four cases (R87). -/
def Obligations.CnRule : Prop :=
  ∀ (s : State) (sub : Field),
    (∀ n : Nibble, encodesW1 (.cn (n.setWidth 12)) 0x3 n) ∧
    (sub = 0 →
      exec (.cn sub) s =
        .next { s with
          ir := s.irFor 0x3 sub, pc := s.pcAfter 0x3, vmState := .halted, haltCause := .cnHalt }) ∧
    (sub = 1 →
      exec (.cn sub) s = .next { s with ir := s.irFor 0x3 sub, pc := s.pcAfter 0x3 }) ∧
    (sub = 2 →
      exec (.cn sub) s =
        .next { s with ir := s.irFor 0x3 sub, pc := s.pcAfter 0x3, ind := true }) ∧
    (3 ≤ sub.toNat → sub.toNat ≤ 15 →
      exec (.cn sub) s =
        .next { s with
          ir := s.irFor 0x3 sub, pc := s.pcAfter 0x3
          diag := s.diag ++ [.warn (.cnUnimplemented sub)] })

/-! ### Arithmetic -/

/-- `+` (R89). -/
def Obligations.AddRule : Prop :=
  ∀ (s : State) (field : Field),
    encodesW2 (.add field) 0x4 field ∧
    (∀ v, effectiveValue s field = some v →
      exec (.add field) s =
        .next { s with
          ir := s.irFor 0x4 field, pc := s.pcAfter 0x4, ind := false
          acc := BitVec.ofInt 8 (s.acc.toInt + (v : Int)) }) ∧
    (effectiveValue s field = none → exec (.add field) s = .next (takeFault .bankOverrun s))

/-- `-` (R90). -/
def Obligations.SubRule : Prop :=
  ∀ (s : State) (field : Field),
    encodesW2 (.sub field) 0x5 field ∧
    (∀ v, effectiveValue s field = some v →
      exec (.sub field) s =
        .next { s with
          ir := s.irFor 0x5 field, pc := s.pcAfter 0x5, ind := false
          acc := BitVec.ofInt 8 (s.acc.toInt - (v : Int)) }) ∧
    (effectiveValue s field = none → exec (.sub field) s = .next (takeFault .bankOverrun s))

/-- `*` (R91). -/
def Obligations.MulRule : Prop :=
  ∀ (s : State) (field : Field),
    encodesW2 (.mul field) 0x6 field ∧
    (∀ v, effectiveValue s field = some v →
      exec (.mul field) s =
        .next { s with
          ir := s.irFor 0x6 field, pc := s.pcAfter 0x6, ind := false
          acc := BitVec.ofInt 8 (s.acc.toInt * (v : Int)) }) ∧
    (effectiveValue s field = none → exec (.mul field) s = .next (takeFault .bankOverrun s))

/-- `/`: the greatest integer not above the rational quotient, and the two faults in their order (R92). -/
def Obligations.DivRule : Prop :=
  ∀ (s : State) (field : Field),
    encodesW2 (.div field) 0x7 field ∧
    (∀ v, effectiveValue s field = some v → v ≠ 0 →
      exec (.div field) s =
        .next { s with
          ir := s.irFor 0x7 field, pc := s.pcAfter 0x7, ind := false
          acc := BitVec.ofInt 8 ⌊(s.acc.toInt : ℚ) / (v : ℚ)⌋ }) ∧
    (effectiveValue s field = some 0 → exec (.div field) s = .next (takeFault .divideByZero s)) ∧
    (effectiveValue s field = none → exec (.div field) s = .next (takeFault .bankOverrun s))

/-- Because the divisor is positive the quotient never overflows: the signed value of `ACC` after `/` is the exact
floor (R92). -/
def Obligations.DivisionIsExact : Prop :=
  ∀ (s : State) (field : Field) (v : Nat), effectiveValue s field = some v → v ≠ 0 →
    ∃ t, exec (.div field) s = .next t ∧ t.acc.toInt = ⌊(s.acc.toInt : ℚ) / (v : ℚ)⌋

/-- For `+`, `-` and `*` only the operand value modulo 256 affects the result (R88). -/
def Obligations.ArithmeticUsesOperandModulo256 : Prop :=
  ∀ (s : State) (f g : Field) (v w : Nat), effectiveValue s f = some v → effectiveValue s g = some w →
    v % 256 = w % 256 →
    (∃ t u, exec (.add f) s = .next t ∧ exec (.add g) s = .next u ∧ t.acc = u.acc) ∧
    (∃ t u, exec (.sub f) s = .next t ∧ exec (.sub g) s = .next u ∧ t.acc = u.acc) ∧
    (∃ t u, exec (.mul f) s = .next t ∧ exec (.mul g) s = .next u ∧ t.acc = u.acc)

/-! ### Load and store -/

/-- LD (R93). -/
def Obligations.LdRule : Prop :=
  ∀ (s : State) (field : Field),
    encodesW2 (.ld field) 0x8 field ∧
    (∀ v, effectiveValue s field = some v →
      exec (.ld field) s =
        .next { s with ir := s.irFor 0x8 field, pc := s.pcAfter 0x8, ind := false, acc := BitVec.ofNat 8 v }) ∧
    (effectiveValue s field = none → exec (.ld field) s = .next (takeFault .bankOverrun s))

/-- How a program reads memory with LD: at the default `OPERAND_SOURCE` in indirect mode the byte after the pointer's
first (R93), and under `memory_byte` in direct mode the byte at the operand (R82). -/
def Obligations.LoadReadsMemory : Prop :=
  ∀ (s : State) (field : Field),
    (s.params.operandSource = .resolvedValue → s.ind = true → field ≠ 0xFFF →
      ∃ t, exec (.ld field) s = .next t ∧ t.acc = s.byteAt (field.toNat + 1)) ∧
    (s.params.operandSource = .memoryByte → s.ind = false →
      ∃ t, exec (.ld field) s = .next t ∧ t.acc = s.byteAt field.toNat)

/-- MM: the accumulator goes to the resolved address, every other byte stays, and the boundary warning is given outside
`loading` (R48, R94). The address is the one the meaning computes, from the operand resolved after the fetch. -/
def Obligations.MmRule : Prop :=
  ∀ (s : State) (field : Field),
    encodesW2 (.mm field) 0x9 field ∧
    (∀ ea u, resolve field (s.fetched (.mm field)) = .ok (ea, u) →
      effectiveOperand s field = some ea ∧
      ∃ t, exec (.mm field) s = .next t ∧
        (∀ a, t.mem.read a = if a = (busAddr s.bank (zext16 ea)).toNat then s.acc else s.mem.read a) ∧
        t = { s with
          ir := s.irFor 0x9 field, pc := s.pcAfter 0x9, ind := false, mem := t.mem
          diag := s.diag ++
            if (busAddr s.bank (zext16 ea)).toNat < Config.reservedBoundary.toNat ∧ s.vmState ≠ .loading then
              [.warn (.lowWrite (busAddr s.bank (zext16 ea)))]
            else [] }) ∧
    (effectiveOperand s field = none → exec (.mm field) s = .next (takeFault .bankOverrun s))

/-! ### Subroutine call -/

/-- SC: the two bytes of the return address go to the slot, every other byte stays, and `IND` is untouched (R95). -/
def Obligations.ScRule : Prop :=
  ∀ (s : State) (field : Field),
    encodesW2 (.sc field) 0xA field ∧
    (field ≠ 0xFFF →
      ∃ t, exec (.sc field) s = .next t ∧
        (∀ a, t.mem.read a =
          if a = (busAddr s.bank (zext16 field)).toNat then highByte (s.pcAfter 0xA)
          else if a = (busAddr s.bank (zext16 field + 1)).toNat then lowByte (s.pcAfter 0xA)
          else s.mem.read a) ∧
        t = { s with
          ir := s.irFor 0xA field, pc := field.setWidth 16 + 2, mem := t.mem
          diag := s.diag ++
            (if (busAddr s.bank (zext16 field)).toNat < Config.reservedBoundary.toNat ∧ s.vmState ≠ .loading then
              [.warn (.lowWrite (busAddr s.bank (zext16 field)))]
            else []) ++
            if (busAddr s.bank (zext16 field + 1)).toNat < Config.reservedBoundary.toNat ∧ s.vmState ≠ .loading then
              [.warn (.lowWrite (busAddr s.bank (zext16 field + 1)))]
            else [] }) ∧
    (field = 0xFFF → exec (.sc field) s = .next (takeFault .bankOverrun s))

/-- The return convention: `CN 2` and `JP S`, in any state that still holds the slot SC wrote at `S`, go to the low 12
bits of the address after the SC (R96). -/
def Obligations.CallAndReturn : Prop :=
  ∀ (s t u : State) (slot : Field), slot ≠ 0xFFF → exec (.sc slot) s = .next t →
    u.bank = t.bank → u.byteAt slot.toNat = t.byteAt slot.toNat → u.byteAt (slot.toNat + 1) = t.byteAt (slot.toNat + 1) →
    ∃ v w, exec (.cn 2) u = .next v ∧ exec (.jp slot) v = .next w ∧
      w.pc = (low12 (s.pcAfter 0xA)).setWidth 16 ∧ w.ind = false ∧ w.acc = u.acc

/-! ### System call and I/O -/

/-- OS in its three cases, all 12 bits of the operand compared (R97). -/
def Obligations.OsRule : Prop :=
  ∀ (s : State) (field : Field),
    encodesW2 (.os field) 0xB field ∧
    (field = 0x000 →
      exec (.os field) s =
        .next { s with
          ir := s.irFor 0xB field, pc := s.pcAfter 0xB
          diag := s.diag ++ [.dump s.acc.toInt s.acc.toNat (s.pcAfter 0xB)] }) ∧
    (field = 0x00F → s.vmState = .loading →
      exec (.os field) s = .next { s with ir := s.irFor 0xB field, pc := s.pcAfter 0xB, vmState := .idle }) ∧
    (field = 0x00F → s.vmState = .running →
      exec (.os field) s =
        .next { s with ir := s.irFor 0xB field, pc := s.pcAfter 0xB, vmState := .halted, haltCause := .osHalt }) ∧
    (field ≠ 0x000 → field ≠ 0x00F →
      exec (.os field) s =
        .next { s with
          ir := s.irFor 0xB field, pc := s.pcAfter 0xB, diag := s.diag ++ [.warn (.osUnimplemented field)] })

/-- IO in its four types, on slots bound and unbound (R98). -/
def Obligations.IoRule : Prop :=
  ∀ (s : State) (d : SlotId),
    encodesW1 (.io .read ⟨d, 0⟩) 0xC (0b00#2 ++ slotBits d) ∧
    encodesW1 (.io .write ⟨d, 0⟩) 0xC (0b01#2 ++ slotBits d) ∧
    encodesW1 (.io .enableInterrupt ⟨d, 0⟩) 0xC (0b10#2 ++ slotBits d) ∧
    encodesW1 (.io .disableInterrupt ⟨d, 0⟩) 0xC (0b11#2 ++ slotBits d) ∧
    (∀ (st : InStream) (b : Byte), (s.slots.get d).inp = some st → st.bytes[st.pos]? = some b →
      exec (.io .read ⟨d, 0⟩) s =
        .next { s with
          ir := s.irFor 0xC (0x00#8 ++ (0b00#2 ++ slotBits d)), pc := s.pcAfter 0xC, acc := b
          slots := s.slots.set d ⟨some ⟨st.bytes, st.pos + 1⟩, (s.slots.get d).out⟩ }) ∧
    (∀ st : InStream, (s.slots.get d).inp = some st → st.bytes[st.pos]? = none →
      exec (.io .read ⟨d, 0⟩) s =
        .next { s with ir := s.irFor 0xC (0x00#8 ++ (0b00#2 ++ slotBits d)), pc := s.pcAfter 0xC }) ∧
    ((s.slots.get d).inp = none → exec (.io .read ⟨d, 0⟩) s = .next (takeFault .deviceAbsent s)) ∧
    (∀ sink : List Byte, (s.slots.get d).out = some sink →
      exec (.io .write ⟨d, 0⟩) s =
        .next { s with
          ir := s.irFor 0xC (0x00#8 ++ (0b01#2 ++ slotBits d)), pc := s.pcAfter 0xC
          slots := s.slots.set d ⟨(s.slots.get d).inp, some (sink ++ [s.acc])⟩ }) ∧
    ((s.slots.get d).out = none → exec (.io .write ⟨d, 0⟩) s = .next (takeFault .deviceAbsent s)) ∧
    exec (.io .enableInterrupt ⟨d, 0⟩) s =
      .next { s with ir := s.irFor 0xC (0x00#8 ++ (0b10#2 ++ slotBits d)), pc := s.pcAfter 0xC } ∧
    exec (.io .disableInterrupt ⟨d, 0⟩) s =
      .next { s with ir := s.irFor 0xC (0x00#8 ++ (0b11#2 ++ slotBits d)), pc := s.pcAfter 0xC }

/-- What the bits of an operand do that only a two-byte format of a non-default `INSN_WIDTH` has: CN compares them, and
IO leaves them without effect but in `IR`. The spec does not say; this is the model's choice, log entry 5. -/
def Obligations.WideOperandRule : Prop :=
  (∀ (s : State) (sub : Field), 16 ≤ sub.toNat →
    exec (.cn sub) s =
      .next { s with
        ir := s.irFor 0x3 sub, pc := s.pcAfter 0x3
        diag := s.diag ++ [.warn (.cnUnimplemented sub)] }) ∧
  ∀ (s t : State) (op : IoOp) (d : SlotId) (high : Byte), exec (.io op ⟨d, 0⟩) s = .next t →
    ∃ u, exec (.io op ⟨d, high⟩) s = .next u ∧ { u with ir := t.ir } = t

/-! ### Rules of the whole machine -/

/-- Indirect mode is single-shot: after `CN 2` the first LD goes through its pointer and the second is direct (R81). -/
def Obligations.IndirectModeIsSingleShot : Prop :=
  ∀ (s : State) (f g : Field), f ≠ 0xFFF →
    ∃ t u v, exec (.cn 2) s = .next t ∧ exec (.ld f) t = .next u ∧ exec (.ld g) u = .next v ∧
      u.acc = BitVec.ofNat 8 (s.valueAt (low12 (wordOf (s.byteAt f.toNat) (s.byteAt (f.toNat + 1))))) ∧ u.ind = false ∧
      v.acc = BitVec.ofNat 8 (s.valueAt g) ∧ v.ind = false

/-- An instruction that completes clears `IND` if it resolves; of the others only CN 2 writes it, and sets it (R23,
R80). -/
def Obligations.IndirectFlagRule : Prop :=
  ∀ (i : Instr) (s t : State), exec i s = .next t → s.haltCause ≠ .fault → t.haltCause ≠ .fault →
    (resolves i = true → t.ind = false) ∧ (i = .cn 2 → t.ind = true) ∧
    (resolves i = false → i ≠ .cn 2 → t.ind = s.ind)

/-- Only MM and SC change memory (R38). -/
def Obligations.OnlyMmAndScWriteMemory : Prop :=
  ∀ (i : Instr) (s t : State), exec i s = .next t → t.mem ≠ s.mem → (∃ f, i = .mm f) ∨ ∃ f, i = .sc f

/-- Only `+ - * / LD` and the IO read change the accumulator (R19). -/
def Obligations.OnlyNamedInstructionsWriteAcc : Prop :=
  ∀ (i : Instr) (s t : State), exec i s = .next t → t.acc ≠ s.acc →
    (∃ f, i = .add f ∨ i = .sub f ∨ i = .mul f ∨ i = .div f ∨ i = .ld f) ∨ ∃ d, i = .io .read d

/-- The slots are reached only by IO, and an IO touches only the slot it names (R39). -/
def Obligations.OnlyIoReachesSlots : Prop :=
  ∀ (i : Instr) (s t : State), exec i s = .next t →
    (t.slots ≠ s.slots → ∃ op d, i = .io op d) ∧
    ∀ op d e, i = .io op d → e ≠ d.id → t.slots.get e = s.slots.get e

/-- No instruction writes `BANK`, the parameters, the resident loader image, the host's command or the host's inputs
(R22). All but `BANK` are the model's own fields, log entries 5, 1, 7 and 6. -/
def Obligations.NoInstructionWritesBank : Prop :=
  ∀ (i : Instr) (s t : State), exec i s = .next t →
    t.bank = s.bank ∧ t.params = s.params ∧ t.loaderImage = s.loaderImage ∧ t.command = s.command ∧ t.hostIn = s.hostIn

/-- The diagnostics trace is append-only until a reset (R12, R34). -/
def Obligations.DiagnosticsOnlyGrow : Prop :=
  ∀ s t : State, step s = .next t → (∀ rest, s.hostIn ≠ some .reset :: rest) → s.diag <+: t.diag

/-- `VMSTATE` changes only along the table of R31, until a reset. -/
def Obligations.VmStateFollowsTheTable : Prop :=
  ∀ s t : State, step s = .next t → (∀ rest, s.hostIn ≠ some .reset :: rest) →
    vmTransition s.vmState t.vmState = true

/-- `halted` is terminal: until a reset nothing of the block changes but slot 1's input, which an ending `load` unbinds
(R31, R101, R114). When that happens is the model's choice, log entry 7. -/
def Obligations.HaltedIsTerminal : Prop :=
  ∀ s t : State, s.vmState = .halted → step s = .next t → (∀ rest, s.hostIn ≠ some .reset :: rest) →
    t.vmState = .halted ∧ t.haltCause = s.haltCause ∧ t.acc = s.acc ∧ t.pc = s.pc ∧ t.ir = s.ir ∧ t.bank = s.bank ∧
    t.ind = s.ind ∧ t.mem = s.mem ∧ t.faultRec = s.faultRec ∧ t.diag = s.diag ∧ t.loaderImage = s.loaderImage ∧
    t.params = s.params ∧ t.slots.slot0 = s.slots.slot0 ∧ t.slots.slot1.out = s.slots.slot1.out ∧
    (t.slots.slot1.inp = s.slots.slot1.inp ∨ (∃ left, s.command = .load left) ∧ t.slots.slot1.inp = none) ∧
    t.slots.slot2 = s.slots.slot2 ∧ t.slots.slot3 = s.slots.slot3

/-- `loading` is entered only for a segment of a `load`: slot 1 bound to it, `PC` and `BANK` at 0 (R115, R123). The
field `command` is the model's own, log entry 7. -/
def Obligations.LoadingIsEnteredByLoad : Prop :=
  ∀ s t : State, step s = .next t → s.vmState ≠ .loading → t.vmState = .loading →
    t.pc = 0x0000 ∧ t.bank = 0 ∧ ∃ seg rest, t.command = .load rest ∧ t.slots.slot1.inp = some ⟨seg, 0⟩

/-- No step writes the parameters of the block, `reset` included: they are fixed before reset (R8, R18). That the state
holds them is the model's choice, log entries 1 and 5. -/
def Obligations.NoStepWritesParameters : Prop :=
  ∀ s t : State, step s = .next t → t.loaderImage = s.loaderImage ∧ t.params = s.params

/-- Every instruction has a next state in every state, and no step is ever refused: a fault of the spec is a next
state too (R101). -/
def Obligations.NoInstructionStops : Prop :=
  (∀ (i : Instr) (s : State), ∃ t, exec i s = .next t) ∧
  ∀ (s : State) (r : Refusal), step s ≠ .refused r

/-- No step reads the diagnostics trace: with another trace the next state is the same but for the trace (R12, R34,
R111). -/
def Obligations.DiagnosticsAreNotObserved : Prop :=
  ∀ (s t : State) (trace : List DiagEvent), step s = .next t →
    ∃ u, step { s with diag := trace } = .next u ∧ { u with diag := [] } = { t with diag := [] }

/-- One privilege mode: but for OS 0x00F an instruction does the same in `loading` and in `running`, the trace of
warnings apart (R115). -/
def Obligations.LoadingAndRunningAgree : Prop :=
  ∀ (i : Instr) (s t : State), i ≠ .os 0x00F → exec i { s with vmState := .running } = .next t →
    ∃ u, exec i { s with vmState := .loading } = .next u ∧
      { u with diag := [], vmState := t.vmState } = { t with diag := [] } ∧
      (t.vmState = .running ∧ u.vmState = .loading ∨ t.vmState = .halted ∧ u.vmState = .halted)

/-! ### Memory -/

/-- Memories in canonical form that read the same everywhere are the same data. The canonical form is the model's
own, log entry 12. -/
def Obligations.MemoriesWithEqualReadsAreEqual : Prop :=
  ∀ m n : Memory, m.wf = true → n.wf = true → (∀ a, a < 65536 → m.read a = n.read a) → m = n

/-- While `BANK` is 0 no step changes a cell of banks 1 to 15, until a reset (R27). -/
def Obligations.UpperBanksNeverChange : Prop :=
  ∀ s t : State, s.bank = 0 → step s = .next t → (∀ rest, s.hostIn ≠ some .reset :: rest) →
    t.bank = 0 ∧ ∀ a, 4096 ≤ a → t.mem.read a = s.mem.read a

/-! ### Reset and the host's commands -/

/-- What the reset sequence leaves, for every loader image and every console (R36, R121): `State.reset` is one such
state. Which image it holds is the model's choice, log entry 1. -/
def Obligations.ResetState : Prop :=
  (∃ n, State.reset = State.resetFrom State.reset.params State.reset.loaderImage n) ∧
  ∀ (p : Params) (image : List Byte) (n : Nat), image.length ≤ 4096 →
    (State.resetFrom p image n).acc = 0x00 ∧ (State.resetFrom p image n).pc = 0x0000 ∧
    (State.resetFrom p image n).ir = 0x0000 ∧ (State.resetFrom p image n).bank = 0 ∧
    (State.resetFrom p image n).ind = false ∧
    (∀ a, (State.resetFrom p image n).mem.read a = image.getD a 0x00) ∧
    (∃ bytes, (State.resetFrom p image n).slots.slot0 = ⟨some ⟨bytes, 0⟩, some []⟩) ∧
    (State.resetFrom p image n).slots.slot1 = ⟨none, none⟩ ∧ (State.resetFrom p image n).slots.slot2 = ⟨none, none⟩ ∧
    (State.resetFrom p image n).slots.slot3 = ⟨none, none⟩ ∧
    (State.resetFrom p image n).vmState = .idle ∧ (State.resetFrom p image n).haltCause = .none ∧
    (State.resetFrom p image n).faultRec = none ∧ (State.resetFrom p image n).diag = [] ∧
    (State.resetFrom p image n).params = p

/-- The host's `reset` runs the reset sequence from any state (R120, R121). The numbering of the console's bindings
and the list of host inputs are the model's own, log entries 4 and 6. -/
def Obligations.HostResetRule : Prop :=
  ∀ (s : State) (rest : List (Option HostCommand)), s.hostIn = some .reset :: rest →
    ∃ n, step s = .next { State.resetFrom s.params s.loaderImage n with hostIn := rest }

/-- `run` (R124): `PC` gets the big-endian entry vector of bank 0, and nothing else of the block changes. The fields
`command` and `hostIn` are the model's own, log entries 7 and 6. -/
def Obligations.RunRule : Prop :=
  ∀ (s : State) (rest : List (Option HostCommand)), s.hostIn = some .run :: rest → s.vmState = .idle →
    s.command.inProgress = false →
    step s =
      .next { s with
        hostIn := rest, pc := wordOf (s.mem.read 0x0022) (s.mem.read 0x0023), vmState := .running, command := .run }

/-- `load` (R123): the first segment starts, or a `load` of no segments is done at once. The fields `command` and
`hostIn`, and that a `load` of no segments is done at once, are the model's own, log entries 7 and 6. -/
def Obligations.LoadRule : Prop :=
  ∀ (s : State) (rest : List (Option HostCommand)) (segs : List (List Byte)), s.hostIn = some (.load segs) :: rest →
    s.vmState = .idle → s.command.inProgress = false →
    (segs = [] → step s = .next { s with hostIn := rest, command := .ended .completed }) ∧
    ∀ seg more, segs = seg :: more →
      step s =
        .next { s with
          hostIn := rest, pc := 0x0000, bank := 0, vmState := .loading, command := .load more
          slots := { s.slots with slot1 := ⟨some ⟨seg, 0⟩, s.slots.slot1.out⟩ } }

/-- Between two segments of a `load` slot 1 is unbound and the next segment starts; after the last the command is
done (R113, R123). That this is one step of the sequencer is the model's choice, log entry 7. -/
def Obligations.SegmentEndRule : Prop :=
  ∀ (s : State) (left : List (List Byte)), s.hostIn = [] → s.vmState = .idle → s.command = .load left →
    (left = [] →
      step s =
        .next { s with
          command := .ended .completed, slots := { s.slots with slot1 := ⟨none, s.slots.slot1.out⟩ } }) ∧
    ∀ seg more, left = seg :: more →
      step s =
        .next { s with
          pc := 0x0000, bank := 0, vmState := .loading, command := .load more
          slots := { s.slots with slot1 := ⟨some ⟨seg, 0⟩, s.slots.slot1.out⟩ } }

/-- A `load` or `run` outside `idle`, or while a command is in progress, changes nothing (R122). The fields
`command` and `hostIn` are the model's own, log entries 7 and 6. -/
def Obligations.RefusedCommandsChangeNothing : Prop :=
  ∀ (s : State) (c : HostCommand) (rest : List (Option HostCommand)), s.hostIn = some c :: rest →
    (c = .run ∨ ∃ segs, c = .load segs) → (s.vmState ≠ .idle ∨ s.command.inProgress = true) →
    step s = .next { s with hostIn := rest }

/-- `cancel` (R114): outside `halted` the core stops with cause `CANCELLED` and nothing else of the block changes; in
`halted` no register, memory cell or cause changes, and a command that CN 0 left pending ends cancelled, a `load` with
slot 1 unbound (R123) whether or not the sequencer had seen the halt. The fields `command` and `hostIn`, and that the end
of a cancelled command outside `halted` is a later step, are the model's own, log entries 7 and 6. -/
def Obligations.CancelRule : Prop :=
  ∀ (s : State) (rest : List (Option HostCommand)), s.hostIn = some .cancel :: rest →
    (s.vmState ≠ .halted → step s = .next { s with hostIn := rest, vmState := .halted, haltCause := .cancelled }) ∧
    (s.vmState = .halted → s.haltCause = .cnHalt → s.command = .run ∨ s.command = .held →
      step s = .next { s with hostIn := rest, command := .ended .cancelled }) ∧
    (∀ left, s.vmState = .halted → s.haltCause = .cnHalt → s.command = .load left →
      step s =
        .next { s with
          hostIn := rest, command := .ended .cancelled
          slots := { s.slots with slot1 := ⟨none, s.slots.slot1.out⟩ } }) ∧
    (s.vmState = .halted → s.haltCause ≠ .cnHalt ∨ s.command.inProgress = false →
      step s = .next { s with hostIn := rest })

/-- How the command in progress ends when the core has halted (R105, R112, R113): `run` completes after OS 0x00F,
either command ends with a fault or cancelled, and CN 0 leaves it pending. That this is one step of the sequencer is
the model's choice, log entry 7. -/
def Obligations.CommandEndRule : Prop :=
  ∀ (s : State) (after : Command), s.hostIn = [] → s.vmState = .halted →
    (s.haltCause = .osHalt ∧ after = .ended .completed ∨ s.haltCause = .fault ∧ after = .ended .faulted ∨
      s.haltCause = .cancelled ∧ after = .ended .cancelled ∨ s.haltCause = .cnHalt ∧ after = .held) →
    (s.command = .run → step s = .next { s with command := after }) ∧
    ∀ left, s.command = .load left →
      step s =
        .next { s with command := after, slots := { s.slots with slot1 := ⟨none, s.slots.slot1.out⟩ } }

/-- The host binds and unbinds streams of slots 1 to 3 (R11), and binds only in `idle` (R30): there each takes effect on
its stream alone. The rest is the model's choice, log entry 8: that a new sink is empty and a stream starts at its first
byte, and the whole of the last clause, the refusal. The rules keep only binding to `idle`, so that an unbinding outside
`idle` is refused as well, and that any refused binding or unbinding (outside `idle`, or of slot 0) changes nothing, is
entry 8's and not theirs. -/
def Obligations.BindingRule : Prop :=
  ∀ (s : State) (d : SlotId) (bytes : List Byte) (rest : List (Option HostCommand)),
    (s.vmState = .idle → d ≠ .slot0 →
      (s.hostIn = some (.bindIn d bytes) :: rest →
        step s = .next { s with hostIn := rest, slots := s.slots.set d ⟨some ⟨bytes, 0⟩, (s.slots.get d).out⟩ }) ∧
      (s.hostIn = some (.bindOut d) :: rest →
        step s = .next { s with hostIn := rest, slots := s.slots.set d ⟨(s.slots.get d).inp, some []⟩ }) ∧
      (s.hostIn = some (.unbindIn d) :: rest →
        step s = .next { s with hostIn := rest, slots := s.slots.set d ⟨none, (s.slots.get d).out⟩ }) ∧
      (s.hostIn = some (.unbindOut d) :: rest →
        step s = .next { s with hostIn := rest, slots := s.slots.set d ⟨(s.slots.get d).inp, none⟩ })) ∧
    (s.vmState ≠ .idle ∨ d = .slot0 →
      s.hostIn = some (.bindIn d bytes) :: rest ∨ s.hostIn = some (.bindOut d) :: rest ∨
        s.hostIn = some (.unbindIn d) :: rest ∨ s.hostIn = some (.unbindOut d) :: rest →
      step s = .next { s with hostIn := rest })

/-! ### The invariant -/

/-- The state after reset meets the invariant, for every loader image; `State.reset` among them. Which image
`State.reset` holds is the model's choice, log entry 1. -/
def Obligations.ResetMeetsTheInvariant : Prop :=
  (∀ (p : Params) (image : List Byte) (n : Nat), (State.resetFrom p image n).Inv) ∧ State.reset.Inv

/-- Every step from a state that meets the invariant gives a state that meets it: the memory keeps its canonical
form, `BANK` stays 0 and banks 1 to 15 unchanged (R22, R27), the halt cause and the fault record go with the state
(R31 to R33), the console stays bound (R29, R30), and `loading` and `running` belong to their commands (R115). The
record of the command is the model's own, log entry 7. -/
def Obligations.StepKeepsTheInvariant : Prop :=
  ∀ s t : State, s.Inv → step s = .next t → t.Inv

/-! ### Object blocks -/

/-- The stream of an object block reads back as that block with its checksum (R126). -/
def Obligations.ObjectBlockReadsBack : Prop :=
  ∀ (b : ObjectBlock) (rest : List Byte), b.payload.length ≤ 255 →
    readBlock (b.bytes ++ rest) = some (b, checksum b.payload, rest)

/-- Splitting a byte sequence loses nothing, makes no chunk longer than 255 bytes and none but the last shorter, and
starts each chunk where the one before it ends (R127). That none but the last is shorter is an inference from the
example of R127; that no chunk is empty and that start addresses wrap is the model's reading, log entry 13. -/
def Obligations.SplittingIsContiguous : Prop :=
  ∀ (start : Word) (bytes : List Byte),
    (splitPayload start bytes).flatMap (fun b => b.payload) = bytes ∧
    (∀ b ∈ splitPayload start bytes, 0 < b.payload.length ∧ b.payload.length ≤ 255) ∧
    (∀ b, (splitPayload start bytes).head? = some b → b.start = start) ∧
    (splitPayload start bytes).IsChain fun b c =>
      b.payload.length = 255 ∧ c.start = b.start + BitVec.ofNat 16 b.payload.length

/-- The checksum is the XOR of the payload bytes started from 0xFF, so a byte appended is XORed into it, and the checksum
of nothing is 0xFF (R128). -/
def Obligations.ChecksumRule : Prop :=
  checksum [] = 0xFF ∧ (∀ p q : List Byte, checksum (p ++ q) = checksum p ^^^ checksum q ^^^ 0xFF) ∧
  ∀ b : Byte, checksum [b] = 0xFF ^^^ b
end

