-- ==== Sys2Proof/Laws/Decode.lean ====
section
/-! SUPPORT. Laws of the bit fields of an encoding. -/

namespace Sys2Proof

/-- A bit of `opcode ++ operand`. -/
theorem getLsbD_irWord (op : Nibble) (f : Field) (k : Nat) :
    (op ++ f : Word).getLsbD k = if k < 12 then f.getLsbD k else op.getLsbD (k - 12) := BitVec.getLsbD_append

/-- A bit of `hi ++ lo`. -/
theorem getLsbD_wordOf (hi lo : Byte) (k : Nat) :
    (wordOf hi lo).getLsbD k = if k < 8 then lo.getLsbD k else hi.getLsbD (k - 8) := BitVec.getLsbD_append

theorem opcodeOf_highByte (op : Nibble) (f : Field) : opcodeOf (highByte (op ++ f)) = op := by
  ext k hk
  simp [opcodeOf, highByte, getLsbD_irWord, show ¬ 8 + (4 + k) < 12 by omega, show 8 + (4 + k) - 12 = k by omega,
    show 4 + k < 8 by omega, BitVec.getLsbD_eq_getElem hk]

theorem wordOf_highByte_lowByte (w : Word) : wordOf (highByte w) (lowByte w) = w := by
  apply BitVec.eq_of_getLsbD_eq
  intro k hk
  rw [getLsbD_wordOf]
  by_cases h : k < 8
  · simp [lowByte, h]
  · simp [highByte, h, show k - 8 < 8 by omega, show 8 + (k - 8) = k by omega]

@[simp] theorem highByte_wordOf (hi lo : Byte) : highByte (wordOf hi lo) = hi := by
  ext k hk
  simp [highByte, getLsbD_wordOf, BitVec.getLsbD_eq_getElem hk]

@[simp] theorem lowByte_wordOf (hi lo : Byte) : lowByte (wordOf hi lo) = lo := by
  ext k hk
  simp [lowByte, getLsbD_wordOf, hk]

@[simp] theorem low12_append (op : Nibble) (f : Field) : low12 (op ++ f) = f := by
  ext k hk
  simp [low12, getLsbD_irWord, hk]

theorem opcode_append (op : Nibble) (f : Field) : (op ++ f : Word).extractLsb' 12 4 = op := by
  ext k hk
  simp [getLsbD_irWord, BitVec.getLsbD_eq_getElem hk]

@[simp] theorem ioOpOf_ioOpBits (t : IoOp) : ioOpOf (ioOpBits t) = t := by cases t <;> rfl

@[simp] theorem slotIdOf_slotBits (d : SlotId) : slotIdOf (slotBits d) = d := by cases d <;> rfl

theorem opcodeOf_append (op n : Nibble) : opcodeOf (op ++ n : Byte) = op := by
  ext k hk
  rw [opcodeOf, BitVec.getElem_extractLsb', BitVec.getLsbD_append]
  simp [BitVec.getLsbD_eq_getElem hk]

/-- The first byte of an instruction word carries the opcode in either format (R60, R62). -/
theorem opcodeOf_irWordOf (w : OpWidth) (op : Nibble) (x : Field) : opcodeOf (highByte (irWordOf w op x)) = op := by
  cases w
  · rw [irWordOf, highByte_wordOf, opcodeOf_append]
  · exact opcodeOf_highByte op x

/-- The width table gives every instruction's opcode its width (R59, R64). -/
@[simp] theorem lookup_opcode (ws : InsnWidths) (i : Instr) : ws.lookup i.opcode = some (i.width ws) := by
  cases i <;> rfl

/-- The opcodes with a width are the legal ones (R60, R67). -/
theorem lookup_isSome (ws : InsnWidths) (op : Nibble) : (ws.lookup op).isSome = legalOpcode op := by
  unfold InsnWidths.lookup legalOpcode
  have h := op.isLt
  split <;> simp_all
  omega

/-- A bit of `high ++ (t ++ d)`, the operand of an IO (R66). -/
theorem getLsbD_ioOperand (high : Byte) (t d : BitVec 2) (k : Nat) :
    (high ++ (t ++ d) : Field).getLsbD k =
      if k < 2 then d.getLsbD k else if k < 4 then t.getLsbD (k - 2) else high.getLsbD (k - 4) := by
  erw [BitVec.getLsbD_append, BitVec.getLsbD_append]
  by_cases h2 : k < 2
  · simp [h2, show k < 4 by omega]
  · by_cases h4 : k < 4 <;> simp [h2, h4]

/-- The instruction of the opcode and the operand of `i` is `i` (R64, R66). -/
theorem instrOf_operand (i : Instr) : instrOf i.opcode i.operand = .ok i := by
  cases i <;> try rfl
  next t d =>
    have e1 : (Instr.io t d).operand.extractLsb' 2 2 = ioOpBits t := by
      ext k hk
      rw [BitVec.getElem_extractLsb', Instr.operand, getLsbD_ioOperand]
      simp [show ¬ 2 + k < 2 by omega, show 2 + k < 4 by omega, BitVec.getLsbD_eq_getElem hk]
    have e2 : (Instr.io t d).operand.extractLsb' 0 2 = slotBits d.id := by
      ext k hk
      rw [BitVec.getElem_extractLsb', Instr.operand, getLsbD_ioOperand]
      simp [hk]
    have e3 : (Instr.io t d).operand.extractLsb' 4 8 = d.high := by
      ext k hk
      rw [BitVec.getElem_extractLsb', Instr.operand, getLsbD_ioOperand]
      simp [show ¬ 4 + k < 2 by omega, BitVec.getLsbD_eq_getElem hk]
    show Except.ok (Instr.io (ioOpOf _) ⟨slotIdOf _, _⟩) = _
    rw [e1, e2, e3, ioOpOf_ioOpBits, slotIdOf_slotBits]

theorem length_bytesOf (w : OpWidth) (ir : Word) : (bytesOf w ir).length = w.bytes := by cases w <;> rfl

theorem head_bytesOf (w : OpWidth) (ir : Word) : (bytesOf w ir).head? = some (highByte ir) := by cases w <;> rfl

end Sys2Proof
end

