-- ==== Sys2Proof/Laws/Memory.lean ====
section
/-! SUPPORT. The laws of the memory array: a read after a write, and the canonical form kept by every operation. -/

namespace Sys2Proof.Machine

/-! ### Read after write -/

theorem lookupCell_insertCell (l : List Host.Cell) (a b : Nat) (v : Byte) :
    lookupCell (insertCell l a v) b = if b = a then some v else lookupCell l b := by
  induction l with
  | nil => simp only [insertCell, lookupCell, eq_comm]
  | cons c rest ih =>
    obtain ⟨k, w⟩ := c
    by_cases hlt : a < k
    · simp only [insertCell, hlt, if_true, lookupCell]
      by_cases h : b = a
      · simp [h]
      · simp [h, Ne.symm h]
    · by_cases heq : a = k
      · subst heq
        simp only [insertCell, lt_irrefl, if_false, if_true, lookupCell]
        by_cases h : b = a
        · simp [h]
        · simp [h, Ne.symm h]
      · simp only [insertCell, hlt, heq, if_false, lookupCell, ih]
        by_cases h : b = a
        · subst h; simp [Ne.symm heq]
        · simp [h]

theorem lookupCell_eraseCell (l : List Host.Cell) (a b : Nat) :
    lookupCell (eraseCell l a) b = if b = a then none else lookupCell l b := by
  induction l with
  | nil => simp [eraseCell, lookupCell]
  | cons c rest ih =>
    obtain ⟨k, w⟩ := c
    rw [eraseCell] at ih
    by_cases hk : k = a
    · subst hk
      by_cases h : b = k
      · simp_all [eraseCell]
      · simp_all [eraseCell, lookupCell, Ne.symm h]
    · by_cases h : b = a
      · subst h; simp_all [eraseCell, lookupCell]
      · by_cases hb : k = b
        · simp_all [eraseCell, lookupCell]
        · simp_all [eraseCell, lookupCell]

/-- The one law of reads and writes (R41, R44, R51), with no condition on the form of the list. -/
theorem Memory.read_write (m : Memory) (a b : Nat) (v : Byte) :
    (m.write a v).read b = if b = a then v else m.read b := by
  by_cases hv : v = Memory.unlisted
  · by_cases h : b = a <;> simp [Memory.write, Memory.read, hv, lookupCell_eraseCell, h]
  · by_cases h : b = a <;> simp [Memory.write, Memory.read, hv, lookupCell_insertCell, h]

@[simp] theorem Memory.read_write_same (m : Memory) (a : Nat) (v : Byte) : (m.write a v).read a = v := by
  simp [Memory.read_write]

theorem Memory.read_write_other (m : Memory) (a b : Nat) (v : Byte) (h : b ≠ a) :
    (m.write a v).read b = m.read b := by
  simp [Memory.read_write, h]

/-! ### The canonical form -/

theorem cellsWf_cons (lo a : Nat) (v : Byte) (rest : List Host.Cell) :
    cellsWf lo ((a, v) :: rest) = true ↔
      lo ≤ a ∧ a < Config.memorySize ∧ v ≠ Memory.unlisted ∧ cellsWf (a + 1) rest = true := by
  simp [cellsWf, and_assoc]

theorem cellsWf_mono {lo lo' : Nat} {l : List Host.Cell} (h : lo ≤ lo') (hw : cellsWf lo' l = true) :
    cellsWf lo l = true := by
  cases l with
  | nil => rfl
  | cons c rest =>
    obtain ⟨a, v⟩ := c
    rw [cellsWf_cons] at hw ⊢
    exact ⟨h.trans hw.1, hw.2⟩

theorem cellsWf_insertCell {lo a : Nat} {v : Byte} {l : List Host.Cell} (hw : cellsWf lo l = true) (hlo : lo ≤ a)
    (ha : a < Config.memorySize) (hv : v ≠ Memory.unlisted) : cellsWf lo (insertCell l a v) = true := by
  induction l generalizing lo with
  | nil => simp [insertCell, hlo, ha, hv, cellsWf]
  | cons c rest ih =>
    obtain ⟨k, w⟩ := c
    have hc := (cellsWf_cons lo k w rest).1 hw
    by_cases hlt : a < k
    · simp only [insertCell, hlt, if_true]
      exact (cellsWf_cons ..).2 ⟨hlo, ha, hv, (cellsWf_cons ..).2 ⟨hlt, hc.2⟩⟩
    · by_cases heq : a = k
      · subst heq
        simp only [insertCell, lt_irrefl, if_false, if_true]
        exact (cellsWf_cons ..).2 ⟨hlo, ha, hv, hc.2.2.2⟩
      · simp only [insertCell, hlt, heq, if_false]
        exact (cellsWf_cons ..).2 ⟨hc.1, hc.2.1, hc.2.2.1, ih hc.2.2.2 (by omega)⟩

theorem cellsWf_eraseCell {lo : Nat} {l : List Host.Cell} (a : Nat) (hw : cellsWf lo l = true) :
    cellsWf lo (eraseCell l a) = true := by
  induction l generalizing lo with
  | nil => rfl
  | cons c rest ih =>
    obtain ⟨k, w⟩ := c
    have hc := (cellsWf_cons lo k w rest).1 hw
    have hrest := ih hc.2.2.2
    rw [eraseCell] at hrest
    by_cases hk : k = a
    · subst hk
      simpa [eraseCell] using cellsWf_mono (by omega) hrest
    · simp only [eraseCell, List.filter_cons, bne_iff_ne, ne_eq, hk, not_false_eq_true, if_true]
      exact (cellsWf_cons ..).2 ⟨hc.1, hc.2.1, hc.2.2.1, hrest⟩

/-- A write inside the address space keeps the canonical form. -/
theorem Memory.write_wf {m : Memory} {a : Nat} (v : Byte) (hw : m.wf = true) (ha : a < Config.memorySize) :
    (m.write a v).wf = true := by
  by_cases hv : v = Memory.unlisted
  · simpa [Memory.write, Memory.wf, hv] using cellsWf_eraseCell a hw
  · simpa [Memory.write, Memory.wf, hv] using cellsWf_insertCell hw (Nat.zero_le a) ha hv

theorem cellsWf_imageCells (a : Nat) (bytes : List Byte) (h : a + bytes.length ≤ Config.memorySize) :
    cellsWf a (imageCells a bytes) = true := by
  induction bytes generalizing a with
  | nil => rfl
  | cons b rest ih =>
    simp only [List.length_cons] at h
    have hrest := ih (a + 1) (by omega)
    by_cases hb : b = Memory.unlisted
    · simp only [imageCells, hb, if_true]
      exact cellsWf_mono (Nat.le_succ a) hrest
    · simp only [imageCells, hb, if_false]
      exact (cellsWf_cons ..).2 ⟨le_refl a, by omega, hb, hrest⟩

/-- The memory after reset is in canonical form, for every loader image. -/
theorem Memory.ofImage_wf (image : List Byte) : (Memory.ofImage image).wf = true := by
  refine cellsWf_imageCells 0 _ ?_
  simp only [List.length_take, Config.memorySize, Config.bankSize]
  omega

/-! ### The memory after reset -/

theorem lookupCell_imageCells (a b : Nat) (bytes : List Byte) :
    (lookupCell (imageCells a bytes) b).getD Memory.unlisted =
      if a ≤ b then bytes.getD (b - a) Memory.unlisted else Memory.unlisted := by
  induction bytes generalizing a with
  | nil => simp [imageCells, lookupCell]
  | cons c rest ih =>
    have hrest := ih (a + 1)
    by_cases hc : c = Memory.unlisted
    · simp only [imageCells, hc, if_true, hrest]
      rcases Nat.lt_trichotomy a b with h | h | h
      · have hb : b - a = (b - (a + 1)) + 1 := by omega
        simp [show a + 1 ≤ b by omega, h.le, hb]
      · subst h; simp
      · simp [show ¬ a + 1 ≤ b by omega, show ¬ a ≤ b by omega]
    · simp only [imageCells, hc, if_false, lookupCell]
      by_cases h : a = b
      · subst h; simp
      · rw [if_neg h, hrest]
        rcases Nat.lt_or_gt_of_ne h with h | h
        · have hb : b - a = (b - (a + 1)) + 1 := by omega
          simp [show a + 1 ≤ b by omega, h.le, hb]
        · simp [show ¬ a + 1 ≤ b by omega, show ¬ a ≤ b by omega]

/-- What reset places: the loader image from bank 0 offset 0 on, at most a bank of it, and 0x00 elsewhere (R121). -/
theorem Memory.read_ofImage (image : List Byte) (a : Nat) :
    (Memory.ofImage image).read a = (image.take Config.bankSize).getD a 0x00 := by
  simpa [Memory.ofImage, Memory.read, Memory.unlisted] using lookupCell_imageCells 0 a (image.take Config.bankSize)

end Sys2Proof.Machine
end

