-- ==== Sys2Proof/Laws/State.lean ====
section
/-! SUPPORT. What each named update of the state does to each field: one lemma per field per update. -/

namespace Sys2Proof.Machine


/-! ### State.setAcc -/

@[simp] theorem State.setAcc_acc (s : State) (v : Byte) : (s.setAcc v).acc = v := rfl
@[simp] theorem State.setAcc_pc (s : State) (v : Byte) : (s.setAcc v).pc = s.pc := rfl
@[simp] theorem State.setAcc_ir (s : State) (v : Byte) : (s.setAcc v).ir = s.ir := rfl
@[simp] theorem State.setAcc_bank (s : State) (v : Byte) : (s.setAcc v).bank = s.bank := rfl
@[simp] theorem State.setAcc_ind (s : State) (v : Byte) : (s.setAcc v).ind = s.ind := rfl
@[simp] theorem State.setAcc_mem (s : State) (v : Byte) : (s.setAcc v).mem = s.mem := rfl
@[simp] theorem State.setAcc_slots (s : State) (v : Byte) : (s.setAcc v).slots = s.slots := rfl
@[simp] theorem State.setAcc_vmState (s : State) (v : Byte) : (s.setAcc v).vmState = s.vmState := rfl
@[simp] theorem State.setAcc_haltCause (s : State) (v : Byte) : (s.setAcc v).haltCause = s.haltCause := rfl
@[simp] theorem State.setAcc_faultRec (s : State) (v : Byte) : (s.setAcc v).faultRec = s.faultRec := rfl
@[simp] theorem State.setAcc_diag (s : State) (v : Byte) : (s.setAcc v).diag = s.diag := rfl
@[simp] theorem State.setAcc_command (s : State) (v : Byte) : (s.setAcc v).command = s.command := rfl
@[simp] theorem State.setAcc_params (s : State) (v : Byte) : (s.setAcc v).params = s.params := rfl
@[simp] theorem State.setAcc_loaderImage (s : State) (v : Byte) : (s.setAcc v).loaderImage = s.loaderImage := rfl
@[simp] theorem State.setAcc_hostIn (s : State) (v : Byte) : (s.setAcc v).hostIn = s.hostIn := rfl
@[simp] theorem State.setAcc_freeCount (s : State) (v : Byte) : (s.setAcc v).freeCount = s.freeCount := rfl

/-! ### State.setPc -/

@[simp] theorem State.setPc_acc (s : State) (v : Word) : (s.setPc v).acc = s.acc := rfl
@[simp] theorem State.setPc_pc (s : State) (v : Word) : (s.setPc v).pc = v := rfl
@[simp] theorem State.setPc_ir (s : State) (v : Word) : (s.setPc v).ir = s.ir := rfl
@[simp] theorem State.setPc_bank (s : State) (v : Word) : (s.setPc v).bank = s.bank := rfl
@[simp] theorem State.setPc_ind (s : State) (v : Word) : (s.setPc v).ind = s.ind := rfl
@[simp] theorem State.setPc_mem (s : State) (v : Word) : (s.setPc v).mem = s.mem := rfl
@[simp] theorem State.setPc_slots (s : State) (v : Word) : (s.setPc v).slots = s.slots := rfl
@[simp] theorem State.setPc_vmState (s : State) (v : Word) : (s.setPc v).vmState = s.vmState := rfl
@[simp] theorem State.setPc_haltCause (s : State) (v : Word) : (s.setPc v).haltCause = s.haltCause := rfl
@[simp] theorem State.setPc_faultRec (s : State) (v : Word) : (s.setPc v).faultRec = s.faultRec := rfl
@[simp] theorem State.setPc_diag (s : State) (v : Word) : (s.setPc v).diag = s.diag := rfl
@[simp] theorem State.setPc_command (s : State) (v : Word) : (s.setPc v).command = s.command := rfl
@[simp] theorem State.setPc_params (s : State) (v : Word) : (s.setPc v).params = s.params := rfl
@[simp] theorem State.setPc_loaderImage (s : State) (v : Word) : (s.setPc v).loaderImage = s.loaderImage := rfl
@[simp] theorem State.setPc_hostIn (s : State) (v : Word) : (s.setPc v).hostIn = s.hostIn := rfl
@[simp] theorem State.setPc_freeCount (s : State) (v : Word) : (s.setPc v).freeCount = s.freeCount := rfl

/-! ### State.setInd -/

@[simp] theorem State.setInd_acc (s : State) (v : Bool) : (s.setInd v).acc = s.acc := rfl
@[simp] theorem State.setInd_pc (s : State) (v : Bool) : (s.setInd v).pc = s.pc := rfl
@[simp] theorem State.setInd_ir (s : State) (v : Bool) : (s.setInd v).ir = s.ir := rfl
@[simp] theorem State.setInd_bank (s : State) (v : Bool) : (s.setInd v).bank = s.bank := rfl
@[simp] theorem State.setInd_ind (s : State) (v : Bool) : (s.setInd v).ind = v := rfl
@[simp] theorem State.setInd_mem (s : State) (v : Bool) : (s.setInd v).mem = s.mem := rfl
@[simp] theorem State.setInd_slots (s : State) (v : Bool) : (s.setInd v).slots = s.slots := rfl
@[simp] theorem State.setInd_vmState (s : State) (v : Bool) : (s.setInd v).vmState = s.vmState := rfl
@[simp] theorem State.setInd_haltCause (s : State) (v : Bool) : (s.setInd v).haltCause = s.haltCause := rfl
@[simp] theorem State.setInd_faultRec (s : State) (v : Bool) : (s.setInd v).faultRec = s.faultRec := rfl
@[simp] theorem State.setInd_diag (s : State) (v : Bool) : (s.setInd v).diag = s.diag := rfl
@[simp] theorem State.setInd_command (s : State) (v : Bool) : (s.setInd v).command = s.command := rfl
@[simp] theorem State.setInd_params (s : State) (v : Bool) : (s.setInd v).params = s.params := rfl
@[simp] theorem State.setInd_loaderImage (s : State) (v : Bool) : (s.setInd v).loaderImage = s.loaderImage := rfl
@[simp] theorem State.setInd_hostIn (s : State) (v : Bool) : (s.setInd v).hostIn = s.hostIn := rfl
@[simp] theorem State.setInd_freeCount (s : State) (v : Bool) : (s.setInd v).freeCount = s.freeCount := rfl

/-! ### State.setMem -/

@[simp] theorem State.setMem_acc (s : State) (m : Memory) : (s.setMem m).acc = s.acc := rfl
@[simp] theorem State.setMem_pc (s : State) (m : Memory) : (s.setMem m).pc = s.pc := rfl
@[simp] theorem State.setMem_ir (s : State) (m : Memory) : (s.setMem m).ir = s.ir := rfl
@[simp] theorem State.setMem_bank (s : State) (m : Memory) : (s.setMem m).bank = s.bank := rfl
@[simp] theorem State.setMem_ind (s : State) (m : Memory) : (s.setMem m).ind = s.ind := rfl
@[simp] theorem State.setMem_mem (s : State) (m : Memory) : (s.setMem m).mem = m := rfl
@[simp] theorem State.setMem_slots (s : State) (m : Memory) : (s.setMem m).slots = s.slots := rfl
@[simp] theorem State.setMem_vmState (s : State) (m : Memory) : (s.setMem m).vmState = s.vmState := rfl
@[simp] theorem State.setMem_haltCause (s : State) (m : Memory) : (s.setMem m).haltCause = s.haltCause := rfl
@[simp] theorem State.setMem_faultRec (s : State) (m : Memory) : (s.setMem m).faultRec = s.faultRec := rfl
@[simp] theorem State.setMem_diag (s : State) (m : Memory) : (s.setMem m).diag = s.diag := rfl
@[simp] theorem State.setMem_command (s : State) (m : Memory) : (s.setMem m).command = s.command := rfl
@[simp] theorem State.setMem_params (s : State) (m : Memory) : (s.setMem m).params = s.params := rfl
@[simp] theorem State.setMem_loaderImage (s : State) (m : Memory) : (s.setMem m).loaderImage = s.loaderImage := rfl
@[simp] theorem State.setMem_hostIn (s : State) (m : Memory) : (s.setMem m).hostIn = s.hostIn := rfl
@[simp] theorem State.setMem_freeCount (s : State) (m : Memory) : (s.setMem m).freeCount = s.freeCount := rfl

/-! ### State.setSlots -/

@[simp] theorem State.setSlots_acc (s : State) (v : Slots) : (s.setSlots v).acc = s.acc := rfl
@[simp] theorem State.setSlots_pc (s : State) (v : Slots) : (s.setSlots v).pc = s.pc := rfl
@[simp] theorem State.setSlots_ir (s : State) (v : Slots) : (s.setSlots v).ir = s.ir := rfl
@[simp] theorem State.setSlots_bank (s : State) (v : Slots) : (s.setSlots v).bank = s.bank := rfl
@[simp] theorem State.setSlots_ind (s : State) (v : Slots) : (s.setSlots v).ind = s.ind := rfl
@[simp] theorem State.setSlots_mem (s : State) (v : Slots) : (s.setSlots v).mem = s.mem := rfl
@[simp] theorem State.setSlots_slots (s : State) (v : Slots) : (s.setSlots v).slots = v := rfl
@[simp] theorem State.setSlots_vmState (s : State) (v : Slots) : (s.setSlots v).vmState = s.vmState := rfl
@[simp] theorem State.setSlots_haltCause (s : State) (v : Slots) : (s.setSlots v).haltCause = s.haltCause := rfl
@[simp] theorem State.setSlots_faultRec (s : State) (v : Slots) : (s.setSlots v).faultRec = s.faultRec := rfl
@[simp] theorem State.setSlots_diag (s : State) (v : Slots) : (s.setSlots v).diag = s.diag := rfl
@[simp] theorem State.setSlots_command (s : State) (v : Slots) : (s.setSlots v).command = s.command := rfl
@[simp] theorem State.setSlots_params (s : State) (v : Slots) : (s.setSlots v).params = s.params := rfl
@[simp] theorem State.setSlots_loaderImage (s : State) (v : Slots) : (s.setSlots v).loaderImage = s.loaderImage := rfl
@[simp] theorem State.setSlots_hostIn (s : State) (v : Slots) : (s.setSlots v).hostIn = s.hostIn := rfl
@[simp] theorem State.setSlots_freeCount (s : State) (v : Slots) : (s.setSlots v).freeCount = s.freeCount := rfl

/-! ### State.setCommand -/

@[simp] theorem State.setCommand_acc (s : State) (c : Command) : (s.setCommand c).acc = s.acc := rfl
@[simp] theorem State.setCommand_pc (s : State) (c : Command) : (s.setCommand c).pc = s.pc := rfl
@[simp] theorem State.setCommand_ir (s : State) (c : Command) : (s.setCommand c).ir = s.ir := rfl
@[simp] theorem State.setCommand_bank (s : State) (c : Command) : (s.setCommand c).bank = s.bank := rfl
@[simp] theorem State.setCommand_ind (s : State) (c : Command) : (s.setCommand c).ind = s.ind := rfl
@[simp] theorem State.setCommand_mem (s : State) (c : Command) : (s.setCommand c).mem = s.mem := rfl
@[simp] theorem State.setCommand_slots (s : State) (c : Command) : (s.setCommand c).slots = s.slots := rfl
@[simp] theorem State.setCommand_vmState (s : State) (c : Command) : (s.setCommand c).vmState = s.vmState := rfl
@[simp] theorem State.setCommand_haltCause (s : State) (c : Command) : (s.setCommand c).haltCause = s.haltCause := rfl
@[simp] theorem State.setCommand_faultRec (s : State) (c : Command) : (s.setCommand c).faultRec = s.faultRec := rfl
@[simp] theorem State.setCommand_diag (s : State) (c : Command) : (s.setCommand c).diag = s.diag := rfl
@[simp] theorem State.setCommand_command (s : State) (c : Command) : (s.setCommand c).command = c := rfl
@[simp] theorem State.setCommand_params (s : State) (c : Command) : (s.setCommand c).params = s.params := rfl
@[simp] theorem State.setCommand_loaderImage (s : State) (c : Command) : (s.setCommand c).loaderImage = s.loaderImage := rfl
@[simp] theorem State.setCommand_hostIn (s : State) (c : Command) : (s.setCommand c).hostIn = s.hostIn := rfl
@[simp] theorem State.setCommand_freeCount (s : State) (c : Command) : (s.setCommand c).freeCount = s.freeCount := rfl

/-! ### State.report -/

@[simp] theorem State.report_acc (s : State) (e : List DiagEvent) : (s.report e).acc = s.acc := rfl
@[simp] theorem State.report_pc (s : State) (e : List DiagEvent) : (s.report e).pc = s.pc := rfl
@[simp] theorem State.report_ir (s : State) (e : List DiagEvent) : (s.report e).ir = s.ir := rfl
@[simp] theorem State.report_bank (s : State) (e : List DiagEvent) : (s.report e).bank = s.bank := rfl
@[simp] theorem State.report_ind (s : State) (e : List DiagEvent) : (s.report e).ind = s.ind := rfl
@[simp] theorem State.report_mem (s : State) (e : List DiagEvent) : (s.report e).mem = s.mem := rfl
@[simp] theorem State.report_slots (s : State) (e : List DiagEvent) : (s.report e).slots = s.slots := rfl
@[simp] theorem State.report_vmState (s : State) (e : List DiagEvent) : (s.report e).vmState = s.vmState := rfl
@[simp] theorem State.report_haltCause (s : State) (e : List DiagEvent) : (s.report e).haltCause = s.haltCause := rfl
@[simp] theorem State.report_faultRec (s : State) (e : List DiagEvent) : (s.report e).faultRec = s.faultRec := rfl
@[simp] theorem State.report_diag (s : State) (e : List DiagEvent) : (s.report e).diag = s.diag ++ e := rfl
@[simp] theorem State.report_command (s : State) (e : List DiagEvent) : (s.report e).command = s.command := rfl
@[simp] theorem State.report_params (s : State) (e : List DiagEvent) : (s.report e).params = s.params := rfl
@[simp] theorem State.report_loaderImage (s : State) (e : List DiagEvent) : (s.report e).loaderImage = s.loaderImage := rfl
@[simp] theorem State.report_hostIn (s : State) (e : List DiagEvent) : (s.report e).hostIn = s.hostIn := rfl
@[simp] theorem State.report_freeCount (s : State) (e : List DiagEvent) : (s.report e).freeCount = s.freeCount := rfl

/-! ### State.warn -/

@[simp] theorem State.warn_acc (s : State) (w : Warning) : (s.warn w).acc = s.acc := rfl
@[simp] theorem State.warn_pc (s : State) (w : Warning) : (s.warn w).pc = s.pc := rfl
@[simp] theorem State.warn_ir (s : State) (w : Warning) : (s.warn w).ir = s.ir := rfl
@[simp] theorem State.warn_bank (s : State) (w : Warning) : (s.warn w).bank = s.bank := rfl
@[simp] theorem State.warn_ind (s : State) (w : Warning) : (s.warn w).ind = s.ind := rfl
@[simp] theorem State.warn_mem (s : State) (w : Warning) : (s.warn w).mem = s.mem := rfl
@[simp] theorem State.warn_slots (s : State) (w : Warning) : (s.warn w).slots = s.slots := rfl
@[simp] theorem State.warn_vmState (s : State) (w : Warning) : (s.warn w).vmState = s.vmState := rfl
@[simp] theorem State.warn_haltCause (s : State) (w : Warning) : (s.warn w).haltCause = s.haltCause := rfl
@[simp] theorem State.warn_faultRec (s : State) (w : Warning) : (s.warn w).faultRec = s.faultRec := rfl
@[simp] theorem State.warn_diag (s : State) (w : Warning) : (s.warn w).diag = s.diag ++ [.warn w] := rfl
@[simp] theorem State.warn_command (s : State) (w : Warning) : (s.warn w).command = s.command := rfl
@[simp] theorem State.warn_params (s : State) (w : Warning) : (s.warn w).params = s.params := rfl
@[simp] theorem State.warn_loaderImage (s : State) (w : Warning) : (s.warn w).loaderImage = s.loaderImage := rfl
@[simp] theorem State.warn_hostIn (s : State) (w : Warning) : (s.warn w).hostIn = s.hostIn := rfl
@[simp] theorem State.warn_freeCount (s : State) (w : Warning) : (s.warn w).freeCount = s.freeCount := rfl

/-! ### State.halt -/

@[simp] theorem State.halt_acc (s : State) (h : HaltCause) : (s.halt h).acc = s.acc := rfl
@[simp] theorem State.halt_pc (s : State) (h : HaltCause) : (s.halt h).pc = s.pc := rfl
@[simp] theorem State.halt_ir (s : State) (h : HaltCause) : (s.halt h).ir = s.ir := rfl
@[simp] theorem State.halt_bank (s : State) (h : HaltCause) : (s.halt h).bank = s.bank := rfl
@[simp] theorem State.halt_ind (s : State) (h : HaltCause) : (s.halt h).ind = s.ind := rfl
@[simp] theorem State.halt_mem (s : State) (h : HaltCause) : (s.halt h).mem = s.mem := rfl
@[simp] theorem State.halt_slots (s : State) (h : HaltCause) : (s.halt h).slots = s.slots := rfl
@[simp] theorem State.halt_vmState (s : State) (h : HaltCause) : (s.halt h).vmState = .halted := rfl
@[simp] theorem State.halt_haltCause (s : State) (h : HaltCause) : (s.halt h).haltCause = h := rfl
@[simp] theorem State.halt_faultRec (s : State) (h : HaltCause) : (s.halt h).faultRec = s.faultRec := rfl
@[simp] theorem State.halt_diag (s : State) (h : HaltCause) : (s.halt h).diag = s.diag := rfl
@[simp] theorem State.halt_command (s : State) (h : HaltCause) : (s.halt h).command = s.command := rfl
@[simp] theorem State.halt_params (s : State) (h : HaltCause) : (s.halt h).params = s.params := rfl
@[simp] theorem State.halt_loaderImage (s : State) (h : HaltCause) : (s.halt h).loaderImage = s.loaderImage := rfl
@[simp] theorem State.halt_hostIn (s : State) (h : HaltCause) : (s.halt h).hostIn = s.hostIn := rfl
@[simp] theorem State.halt_freeCount (s : State) (h : HaltCause) : (s.halt h).freeCount = s.freeCount := rfl

/-! ### State.fetched -/

@[simp] theorem State.fetched_acc (s : State) (i : Instr) : (s.fetched i).acc = s.acc := rfl
@[simp] theorem State.fetched_pc (s : State) (i : Instr) : (s.fetched i).pc = s.pc + BitVec.ofNat 16 (i.width s.params.widths).bytes := rfl
@[simp] theorem State.fetched_ir (s : State) (i : Instr) : (s.fetched i).ir = i.irWord s.params.widths := rfl
@[simp] theorem State.fetched_bank (s : State) (i : Instr) : (s.fetched i).bank = s.bank := rfl
@[simp] theorem State.fetched_ind (s : State) (i : Instr) : (s.fetched i).ind = s.ind := rfl
@[simp] theorem State.fetched_mem (s : State) (i : Instr) : (s.fetched i).mem = s.mem := rfl
@[simp] theorem State.fetched_slots (s : State) (i : Instr) : (s.fetched i).slots = s.slots := rfl
@[simp] theorem State.fetched_vmState (s : State) (i : Instr) : (s.fetched i).vmState = s.vmState := rfl
@[simp] theorem State.fetched_haltCause (s : State) (i : Instr) : (s.fetched i).haltCause = s.haltCause := rfl
@[simp] theorem State.fetched_faultRec (s : State) (i : Instr) : (s.fetched i).faultRec = s.faultRec := rfl
@[simp] theorem State.fetched_diag (s : State) (i : Instr) : (s.fetched i).diag = s.diag := rfl
@[simp] theorem State.fetched_command (s : State) (i : Instr) : (s.fetched i).command = s.command := rfl
@[simp] theorem State.fetched_params (s : State) (i : Instr) : (s.fetched i).params = s.params := rfl
@[simp] theorem State.fetched_loaderImage (s : State) (i : Instr) : (s.fetched i).loaderImage = s.loaderImage := rfl
@[simp] theorem State.fetched_hostIn (s : State) (i : Instr) : (s.fetched i).hostIn = s.hostIn := rfl
@[simp] theorem State.fetched_freeCount (s : State) (i : Instr) : (s.fetched i).freeCount = s.freeCount := rfl

/-! ### State.setIn -/

@[simp] theorem State.setIn_acc (s : State) (d : SlotId) (x : Option InStream) : (s.setIn d x).acc = s.acc := rfl
@[simp] theorem State.setIn_pc (s : State) (d : SlotId) (x : Option InStream) : (s.setIn d x).pc = s.pc := rfl
@[simp] theorem State.setIn_ir (s : State) (d : SlotId) (x : Option InStream) : (s.setIn d x).ir = s.ir := rfl
@[simp] theorem State.setIn_bank (s : State) (d : SlotId) (x : Option InStream) : (s.setIn d x).bank = s.bank := rfl
@[simp] theorem State.setIn_ind (s : State) (d : SlotId) (x : Option InStream) : (s.setIn d x).ind = s.ind := rfl
@[simp] theorem State.setIn_mem (s : State) (d : SlotId) (x : Option InStream) : (s.setIn d x).mem = s.mem := rfl
@[simp] theorem State.setIn_slots (s : State) (d : SlotId) (x : Option InStream) : (s.setIn d x).slots = s.slots.set d { s.slots.get d with inp := x } := rfl
@[simp] theorem State.setIn_vmState (s : State) (d : SlotId) (x : Option InStream) : (s.setIn d x).vmState = s.vmState := rfl
@[simp] theorem State.setIn_haltCause (s : State) (d : SlotId) (x : Option InStream) : (s.setIn d x).haltCause = s.haltCause := rfl
@[simp] theorem State.setIn_faultRec (s : State) (d : SlotId) (x : Option InStream) : (s.setIn d x).faultRec = s.faultRec := rfl
@[simp] theorem State.setIn_diag (s : State) (d : SlotId) (x : Option InStream) : (s.setIn d x).diag = s.diag := rfl
@[simp] theorem State.setIn_command (s : State) (d : SlotId) (x : Option InStream) : (s.setIn d x).command = s.command := rfl
@[simp] theorem State.setIn_params (s : State) (d : SlotId) (x : Option InStream) : (s.setIn d x).params = s.params := rfl
@[simp] theorem State.setIn_loaderImage (s : State) (d : SlotId) (x : Option InStream) : (s.setIn d x).loaderImage = s.loaderImage := rfl
@[simp] theorem State.setIn_hostIn (s : State) (d : SlotId) (x : Option InStream) : (s.setIn d x).hostIn = s.hostIn := rfl
@[simp] theorem State.setIn_freeCount (s : State) (d : SlotId) (x : Option InStream) : (s.setIn d x).freeCount = s.freeCount := rfl

/-! ### State.setOut -/

@[simp] theorem State.setOut_acc (s : State) (d : SlotId) (x : Option (List Byte)) : (s.setOut d x).acc = s.acc := rfl
@[simp] theorem State.setOut_pc (s : State) (d : SlotId) (x : Option (List Byte)) : (s.setOut d x).pc = s.pc := rfl
@[simp] theorem State.setOut_ir (s : State) (d : SlotId) (x : Option (List Byte)) : (s.setOut d x).ir = s.ir := rfl
@[simp] theorem State.setOut_bank (s : State) (d : SlotId) (x : Option (List Byte)) : (s.setOut d x).bank = s.bank := rfl
@[simp] theorem State.setOut_ind (s : State) (d : SlotId) (x : Option (List Byte)) : (s.setOut d x).ind = s.ind := rfl
@[simp] theorem State.setOut_mem (s : State) (d : SlotId) (x : Option (List Byte)) : (s.setOut d x).mem = s.mem := rfl
@[simp] theorem State.setOut_slots (s : State) (d : SlotId) (x : Option (List Byte)) : (s.setOut d x).slots = s.slots.set d { s.slots.get d with out := x } := rfl
@[simp] theorem State.setOut_vmState (s : State) (d : SlotId) (x : Option (List Byte)) : (s.setOut d x).vmState = s.vmState := rfl
@[simp] theorem State.setOut_haltCause (s : State) (d : SlotId) (x : Option (List Byte)) : (s.setOut d x).haltCause = s.haltCause := rfl
@[simp] theorem State.setOut_faultRec (s : State) (d : SlotId) (x : Option (List Byte)) : (s.setOut d x).faultRec = s.faultRec := rfl
@[simp] theorem State.setOut_diag (s : State) (d : SlotId) (x : Option (List Byte)) : (s.setOut d x).diag = s.diag := rfl
@[simp] theorem State.setOut_command (s : State) (d : SlotId) (x : Option (List Byte)) : (s.setOut d x).command = s.command := rfl
@[simp] theorem State.setOut_params (s : State) (d : SlotId) (x : Option (List Byte)) : (s.setOut d x).params = s.params := rfl
@[simp] theorem State.setOut_loaderImage (s : State) (d : SlotId) (x : Option (List Byte)) : (s.setOut d x).loaderImage = s.loaderImage := rfl
@[simp] theorem State.setOut_hostIn (s : State) (d : SlotId) (x : Option (List Byte)) : (s.setOut d x).hostIn = s.hostIn := rfl
@[simp] theorem State.setOut_freeCount (s : State) (d : SlotId) (x : Option (List Byte)) : (s.setOut d x).freeCount = s.freeCount := rfl

/-! ### takeFault -/

@[simp] theorem takeFault_acc (c : FaultCause) (s : State) : (takeFault c s).acc = s.acc := rfl
@[simp] theorem takeFault_pc (c : FaultCause) (s : State) : (takeFault c s).pc = s.pc := rfl
@[simp] theorem takeFault_ir (c : FaultCause) (s : State) : (takeFault c s).ir = Config.freeIR s.freeCount := rfl
@[simp] theorem takeFault_bank (c : FaultCause) (s : State) : (takeFault c s).bank = s.bank := rfl
@[simp] theorem takeFault_ind (c : FaultCause) (s : State) : (takeFault c s).ind = s.ind := rfl
@[simp] theorem takeFault_mem (c : FaultCause) (s : State) : (takeFault c s).mem = s.mem := rfl
@[simp] theorem takeFault_slots (c : FaultCause) (s : State) : (takeFault c s).slots = s.slots := rfl
@[simp] theorem takeFault_vmState (c : FaultCause) (s : State) : (takeFault c s).vmState = .halted := rfl
@[simp] theorem takeFault_haltCause (c : FaultCause) (s : State) : (takeFault c s).haltCause = .fault := rfl
@[simp] theorem takeFault_faultRec (c : FaultCause) (s : State) : (takeFault c s).faultRec = some ⟨c, s.pc⟩ := rfl
@[simp] theorem takeFault_diag (c : FaultCause) (s : State) : (takeFault c s).diag = s.diag := rfl
@[simp] theorem takeFault_command (c : FaultCause) (s : State) : (takeFault c s).command = s.command := rfl
@[simp] theorem takeFault_params (c : FaultCause) (s : State) : (takeFault c s).params = s.params := rfl
@[simp] theorem takeFault_loaderImage (c : FaultCause) (s : State) : (takeFault c s).loaderImage = s.loaderImage := rfl
@[simp] theorem takeFault_hostIn (c : FaultCause) (s : State) : (takeFault c s).hostIn = s.hostIn := rfl
@[simp] theorem takeFault_freeCount (c : FaultCause) (s : State) : (takeFault c s).freeCount = s.freeCount + 1 := rfl

/-! ### The slots -/

@[simp] theorem Slots.get_set_same (sl : Slots) (d : SlotId) (x : Slot) : (sl.set d x).get d = x := by
  cases d <;> rfl

theorem Slots.get_set_other (sl : Slots) (d e : SlotId) (x : Slot) (h : e ≠ d) : (sl.set d x).get e = sl.get e := by
  cases d <;> cases e <;> first | rfl | exact absurd rfl h

@[simp] theorem Slots.set_get_self (sl : Slots) (d : SlotId) : sl.set d (sl.get d) = sl := by
  cases d <;> rfl

end Sys2Proof.Machine
end

