-- ==== Sys2Proof/Laws/Ops.lean ====
section
/-! SUPPORT. One lemma per shared operation that says everything it can do. -/

namespace Sys2Proof.Machine

/-! ### Addresses -/

@[simp] theorem zext16_toNat (f : Field) : (zext16 f).toNat = f.toNat := by
  simp [zext16]; omega

theorem busAddr_toNat (b : Nibble) (off : Word) (h : off.toNat ≤ Config.lastOffset) :
    (busAddr b off).toNat = Config.bankSize * b.toNat + off.toNat := by
  have h12 : off.toNat < 2 ^ 12 := by simp only [Config.lastOffset] at h; omega
  simp only [busAddr, low12, BitVec.toNat_append, BitVec.extractLsb'_toNat, Nat.shiftRight_zero, Config.bankSize,
    Nat.mod_eq_of_lt h12]
  rw [← Nat.shiftLeft_add_eq_or_of_lt h12, Nat.shiftLeft_eq]
  omega

theorem busAddr_lt (b : Nibble) (off : Word) : (busAddr b off).toNat < Config.memorySize := (busAddr b off).isLt

theorem toNat_succ (off : Word) (h : off.toNat + 1 ≤ Config.lastOffset) : (off + 1).toNat = off.toNat + 1 := by
  simp only [Config.lastOffset] at h
  rw [BitVec.toNat_add, show (1 : Word).toNat = 1 from rfl]
  omega

/-! ### The access primitives -/

theorem memRead1_eq (s : State) (off : Word) :
    memRead1 s off = if off.toNat ≤ Config.lastOffset then .ok (s.byteAt off.toNat) else .error .bankOverrun := by
  by_cases h : off.toNat ≤ Config.lastOffset
  · simp [memRead1, portRead, Nat.not_lt.2 h, h, busAddr_toNat _ _ h, State.byteAt]
  · simp [memRead1, portRead, Nat.lt_of_not_le h, h]

theorem memRead2_eq (s : State) (off : Word) :
    memRead2 s off =
      if off.toNat + 1 ≤ Config.lastOffset then .ok (wordOf (s.byteAt off.toNat) (s.byteAt (off.toNat + 1)))
      else .error .bankOverrun := by
  by_cases h : off.toNat + 1 ≤ Config.lastOffset
  · have h0 : off.toNat ≤ Config.lastOffset := by omega
    have h1 : (off + 1).toNat ≤ Config.lastOffset := by rw [toNat_succ off h]; exact h
    simp only [memRead2, portRead, if_neg (Nat.not_lt.2 h), if_neg (Nat.not_lt.2 h0), if_pos h,
      busAddr_toNat _ _ h0, busAddr_toNat _ _ h1, toNat_succ off h, State.byteAt]
  · simp [memRead2, Nat.lt_of_not_le h, h]

theorem memWrite1_eq (s : State) (off : Word) (v : Byte) :
    memWrite1 s off v =
      if off.toNat ≤ Config.lastOffset then
        .ok ((s.setMem (s.mem.write (busAddr s.bank off).toNat v)).report (boundaryCheck s.vmState (busAddr s.bank off)))
      else .error .bankOverrun := by
  by_cases h : off.toNat ≤ Config.lastOffset
  · simp [memWrite1, portWrite, Nat.not_lt.2 h, h]
  · simp [memWrite1, portWrite, Nat.lt_of_not_le h, h]

theorem memWrite2_eq (s : State) (off : Word) (v : Word) :
    memWrite2 s off v =
      if off.toNat + 1 ≤ Config.lastOffset then
        .ok ((s.setMem ((s.mem.write (busAddr s.bank off).toNat (highByte v)).write (busAddr s.bank (off + 1)).toNat
            (lowByte v))).report
          (boundaryCheck s.vmState (busAddr s.bank off) ++ boundaryCheck s.vmState (busAddr s.bank (off + 1))))
      else .error .bankOverrun := by
  by_cases h : off.toNat + 1 ≤ Config.lastOffset
  · have h0 : off.toNat ≤ Config.lastOffset := by omega
    have h1 : (off + 1).toNat ≤ Config.lastOffset := by rw [toNat_succ off h]; exact h
    simp only [memWrite2, memWrite1_eq, if_neg (Nat.not_lt.2 h), if_pos h, if_pos h0, if_pos h1, State.setMem,
      State.report, List.append_assoc]
  · simp [memWrite2, Nat.lt_of_not_le h, h]

/-! ### Operands -/

/-- A resolution gives the effective operand and clears `IND`, or overruns the bank (R81). -/
theorem resolve_eq (field : Field) (s : State) :
    resolve field s =
      match effectiveOperand s field with
      | some ea => .ok (ea, s.setInd false)
      | none => .error .bankOverrun := by
  cases hi : s.ind
  · simp [resolve, effectiveOperand, hi]
  · by_cases hf : field = 0xFFF
    · subst hf
      simp [resolve, effectiveOperand, hi, memRead2_eq, Config.lastOffset]
    · have h : field.toNat + 1 ≤ Config.lastOffset := by
        have hne : field.toNat ≠ 0xFFF := fun hc => hf (BitVec.eq_of_toNat_eq (by simpa using hc))
        have := field.isLt
        simp only [Config.lastOffset]; omega
      simp only [resolve, effectiveOperand, hi, if_true, memRead2_eq, zext16_toNat, if_pos h, if_neg hf]

/-- The operand value of `+ - * / LD` is what the effective operand stands for under `OPERAND_SOURCE` (R82): the
read of the byte it may take never overruns the bank. -/
theorem operandValue_eq (field : Field) (s : State) :
    operandValue field s =
      match effectiveValue s field with
      | some v => .ok (v, s.setInd false)
      | none => .error .bankOverrun := by
  rw [operandValue, operandValueFrom, resolve_eq, effectiveValue]
  cases effectiveOperand s field with
  | none => rfl
  | some ea =>
    have h : ea.toNat ≤ Config.lastOffset := by
      have := ea.isLt
      simp only [Config.lastOffset]; omega
    cases hp : s.params.operandSource <;> simp [hp, State.valueAt, memRead1_eq, h, Except.map, State.byteAt]

@[simp] theorem effectiveValue_fetched (s : State) (i : Instr) (field : Field) :
    effectiveValue (s.fetched i) field = effectiveValue s field := rfl

@[simp] theorem effectiveOperand_fetched (s : State) (i : Instr) (field : Field) :
    effectiveOperand (s.fetched i) field = effectiveOperand s field := rfl

/-! ### The slots -/

theorem slotRead_eq (s : State) (d : SlotId) :
    slotRead s d =
      match (s.slots.get d).inp with
      | none => .error .deviceAbsent
      | some st => .ok (st.next, s.setIn d (some st.advanced)) := rfl

theorem slotWrite_eq (s : State) (d : SlotId) (b : Byte) :
    slotWrite s d b =
      match (s.slots.get d).out with
      | none => .error .deviceAbsent
      | some sink => .ok (s.setOut d (some (sink ++ [b]))) := rfl

/-! ### Commit, fetch and the core's step -/

theorem commit_next {s t : State} {r : Except FaultCause State} (h : commit s r = .next t) :
    r = .ok t ∨ ∃ c, r = .error c ∧ t = takeFault c s := by
  cases r with
  | ok u => exact .inl (by simpa [commit] using h)
  | error c => exact .inr ⟨c, rfl, by simpa [commit, eq_comm] using h⟩

theorem commit_answers_next (s : State) (r : Except FaultCause State) : ∃ t, commit s r = .next t := by
  cases r <;> exact ⟨_, rfl⟩

theorem decodeIR_ok {ws : InsnWidths} {b0 : Byte} {w : OpWidth} (h : widthOf ws b0 = .ok w) (b1 : Byte) :
    ∃ i, decodeIR w (irOf w b0 b1) = .ok i := by
  have hop : (irOf w b0 b1).extractLsb' 12 4 = opcodeOf b0 := by
    cases w <;> (ext k hk; simp [irOf, opcodeOf, getLsbD_wordOf, show ¬ 12 + k < 8 by omega, show 12 + k - 8 = 4 + k by omega])
  have hl : (ws.lookup (opcodeOf b0)).isSome = true := by
    unfold widthOf at h
    split at h
    · next hx => rw [hx]; rfl
    · cases h
  rw [lookup_isSome, legalOpcode, decide_eq_true_eq] at hl
  rw [decodeIR, hop, instrOf]
  split <;> first | exact ⟨_, rfl⟩ | (exfalso; simp_all; omega)

/-- The instruction at `PC` is what the decoder reads from the bytes there, or the fetch overruns the bank (R78, R110). -/
theorem fetchInstr_eq (s : State) :
    fetchInstr s =
      if s.pc.toNat ≤ Config.lastOffset then
        match widthOf s.params.widths (s.byteAt s.pc.toNat) with
        | .error _ => .error .illegalOpcode
        | .ok .one => (decodeIR .one (irOf .one (s.byteAt s.pc.toNat) 0x00)).mapError faultOfDecode
        | .ok .two =>
          if s.pc.toNat + 1 ≤ Config.lastOffset then
            (decodeIR .two (irOf .two (s.byteAt s.pc.toNat) (s.byteAt (s.pc.toNat + 1)))).mapError faultOfDecode
          else .error .bankOverrun
      else .error .bankOverrun := by
  by_cases h : s.pc.toNat ≤ Config.lastOffset
  · simp only [fetchInstr, fetch, memRead1_eq, memRead2_eq, if_pos h]
    cases hw : widthOf s.params.widths (s.byteAt s.pc.toNat) with
    | error e =>
      unfold widthOf at hw
      split at hw <;> cases hw
      rfl
    | ok w =>
      cases w
      · simp only
        cases decodeIR .one (irOf .one (s.byteAt s.pc.toNat) 0x00) <;> rfl
      · by_cases h2 : s.pc.toNat + 1 ≤ Config.lastOffset
        · simp only [h2, if_true, irOf]
          cases decodeIR .two (wordOf (s.byteAt s.pc.toNat) (s.byteAt (s.pc.toNat + 1))) <;> rfl
        · simp only [h2, if_false]
  · simp only [fetchInstr, fetch, memRead1_eq, if_neg h]

theorem coreStep_next {s t : State} (h : coreStep s = .next t) :
    (∃ c, fetchInstr s = .error c ∧ t = takeFault c s) ∨ ∃ i, fetchInstr s = .ok i ∧ exec i s = .next t := by
  unfold coreStep at h
  split at h
  · next c hc => exact .inl ⟨c, hc, by simpa [eq_comm] using h⟩
  · next i hi => exact .inr ⟨i, hi, h⟩

/-- The effect of an instruction that begins in `s`, before it is committed. -/
def instrEffect (i : Instr) (s : State) : Except FaultCause State :=
  match i with
  | .jp f => jumpEffect always f (s.fetched i)
  | .jz f => jumpEffect accIsZero f (s.fetched i)
  | .jn f => jumpEffect accIsNegative f (s.fetched i)
  | .cn sub => .ok (controlEffect sub (s.fetched i))
  | .add f => aluEffect (fun a v => .ok (a + v)) f (s.fetched i)
  | .sub f => aluEffect (fun a v => .ok (a - v)) f (s.fetched i)
  | .mul f => aluEffect (fun a v => .ok (a * v)) f (s.fetched i)
  | .div f => aluEffect floorDivide f (s.fetched i)
  | .ld f => loadEffect f (s.fetched i)
  | .mm f => storeEffect f (s.fetched i)
  | .sc f => callEffect f (s.fetched i)
  | .os f => .ok (systemCallEffect f (s.fetched i))
  | .io op d => ioEffect op d.id (s.fetched i)

/-- Every instruction commits its effect. -/
theorem exec_eq_commit (i : Instr) (s : State) : exec i s = commit s (instrEffect i s) := by
  cases i <;> rfl

/-- What a fetch leaves in `IR` (R62). -/
theorem irWord_eq_irFor (i : Instr) (s : State) : i.irWord s.params.widths = s.irFor i.opcode i.operand := by
  rw [State.irFor, lookup_opcode, Instr.irWord]
  cases h : i.width s.params.widths
  · rw [if_pos rfl]; rfl
  · rw [if_neg (by simp)]; rfl

/-- Where a fetch leaves `PC` (R78). -/
theorem fetched_pc_eq_pcAfter (i : Instr) (s : State) : (s.fetched i).pc = s.pcAfter i.opcode := by
  rw [State.pcAfter, lookup_opcode, State.fetched_pc]
  cases h : i.width s.params.widths
  · rw [if_pos rfl]; rfl
  · rw [if_neg (by simp)]; rfl

/-- The state in which an instruction's own effect begins, in the terms of the claims (R78). -/
theorem fetched_eq (i : Instr) (s : State) :
    s.fetched i = { s with ir := s.irFor i.opcode i.operand, pc := s.pcAfter i.opcode } := by
  rw [← irWord_eq_irFor, ← fetched_pc_eq_pcAfter]
  rfl

/-- An instruction answers the state of its effect, or takes the fault it raised on the state before its fetch. -/
theorem exec_next {i : Instr} {s t : State} (h : exec i s = .next t) :
    instrEffect i s = .ok t ∨ ∃ c, instrEffect i s = .error c ∧ t = takeFault c s :=
  commit_next (by rw [← exec_eq_commit]; exact h)

/-- No instruction stops the model: `exec` always answers a next state. -/
theorem exec_answers_next (i : Instr) (s : State) : ∃ t, exec i s = .next t := by
  rw [exec_eq_commit]
  exact commit_answers_next s _

theorem coreStep_answers_next (s : State) : ∃ t, coreStep s = .next t := by
  unfold coreStep
  split
  · exact ⟨_, rfl⟩
  · exact exec_answers_next _ _

/-- The core steps in `loading` and `running` when no host input is due (R77). -/
theorem step_of_executing {s : State} (h : s.executing) : step s = coreStep s := by
  obtain ⟨hh, hv | hv⟩ := h <;> simp [step, machineStep, hh, hv]

end Sys2Proof.Machine
end

