-- ==== Sys2Proof/Laws/PerInstr.lean ====
section
/-! SUPPORT. The statement made of every instruction as syntax, under every setting of `INSN_WIDTH`: its encoding is as
long as the width table says, its first byte carries its opcode, the opcode is legal, and its operand is well formed
in the two-byte format (R59, R60, R64, R69). -/

namespace Sys2Proof.Laws

/-- The encoding of `i` has the width of its opcode, its first byte tells the opcode, and in the two-byte format every
operand is legal (R60, R64, R69). -/
def EncodingShape.Statement (i : Instr) : Prop :=
  ∀ ws : InsnWidths,
    ws.lookup i.opcode = some (i.width ws) ∧ (encode ws i).length = (i.width ws).bytes ∧
      (encode ws i).head?.map opcodeOf = some i.opcode ∧ legalOpcode i.opcode = true ∧
      (i.width ws = .two → i.wellFormed ws = true)

theorem encodingShape_of (i : Instr) (hl : legalOpcode i.opcode = true)
    (hf : ∀ ws : InsnWidths, i.width ws = .two → i.wellFormed ws = true) : EncodingShape.Statement i := fun ws =>
  ⟨lookup_opcode ws i, length_bytesOf _ _,
    by rw [encode, head_bytesOf, Option.map_some, Instr.irWord, opcodeOf_irWordOf], hl, hf ws⟩

theorem operandFits_two {w : OpWidth} (x : Field) (h : w = .two) : operandFits w x = true := by subst h; rfl

theorem EncodingShape.jp (f : Field) : EncodingShape.Statement (.jp f) :=
  encodingShape_of _ rfl fun _ h => operandFits_two f h

theorem EncodingShape.jz (f : Field) : EncodingShape.Statement (.jz f) :=
  encodingShape_of _ rfl fun _ h => operandFits_two f h

theorem EncodingShape.jn (f : Field) : EncodingShape.Statement (.jn f) :=
  encodingShape_of _ rfl fun _ h => operandFits_two f h

theorem EncodingShape.cn (f : Field) : EncodingShape.Statement (.cn f) :=
  encodingShape_of _ rfl fun _ h => operandFits_two f h

theorem EncodingShape.add (f : Field) : EncodingShape.Statement (.add f) :=
  encodingShape_of _ rfl fun _ h => operandFits_two f h

theorem EncodingShape.sub (f : Field) : EncodingShape.Statement (.sub f) :=
  encodingShape_of _ rfl fun _ h => operandFits_two f h

theorem EncodingShape.mul (f : Field) : EncodingShape.Statement (.mul f) :=
  encodingShape_of _ rfl fun _ h => operandFits_two f h

theorem EncodingShape.div (f : Field) : EncodingShape.Statement (.div f) :=
  encodingShape_of _ rfl fun _ h => operandFits_two f h

theorem EncodingShape.ld (f : Field) : EncodingShape.Statement (.ld f) :=
  encodingShape_of _ rfl fun _ h => operandFits_two f h

theorem EncodingShape.mm (f : Field) : EncodingShape.Statement (.mm f) :=
  encodingShape_of _ rfl fun _ h => operandFits_two f h

theorem EncodingShape.sc (f : Field) : EncodingShape.Statement (.sc f) :=
  encodingShape_of _ rfl fun _ h => operandFits_two f h

theorem EncodingShape.os (f : Field) : EncodingShape.Statement (.os f) :=
  encodingShape_of _ rfl fun _ h => operandFits_two f h

theorem EncodingShape.io (op : IoOp) (d : SlotOperand) : EncodingShape.Statement (.io op d) :=
  encodingShape_of _ rfl fun ws h => by
    rw [Instr.wellFormed, show ws.io = .two from h]; rfl

end Sys2Proof.Laws
end

