-- ==== Sys2Proof/Tests/Slice0.lean ====
section
/-! SUPPORT. Tests of the model against the spec's own vectors (95_test_vectors.md), and for every statement with
hypotheses a concrete state that meets them. -/

namespace Sys2Proof.Tests

open Sys2Proof Sys2Proof.Machine

/-- A running state with `PC`, `ACC`, `IND` and some memory cells. -/
def st (pc : Word) (acc : Byte) (ind : Bool) (cells : List Host.Cell) : State :=
  { State.reset with pc := pc, acc := acc, ind := ind, mem := ⟨cells⟩, vmState := .running, command := .run }

/-- What a test looks at in the next state of an outcome. -/
def look {α : Type} (f : State → α) : Host.Outcome State Fault Refusal → Option α
  | .next s => some (f s)
  | .fault _ => none
  | .refused _ => none

/-! ### Well-formedness: each check refuses an ill-formed term (R8, R64, R67, R74, R126) -/

theorem test_opcode_d_is_illegal : legalOpcode 0xD = false := by decide
theorem test_opcode_c_is_legal : legalOpcode 0xC = true := by decide
theorem test_origin_range : (Pseudo.origin 65536).wellFormed = false ∧ (Pseudo.origin 65535).wellFormed = true := by decide
theorem test_reserve_range : (Pseudo.reserve 4096).wellFormed = false ∧ (Pseudo.reserve 4095).wellFormed = true := by decide
theorem test_literal_range : (Pseudo.literal 256).wellFormed = false ∧ (Pseudo.literal 255).wellFormed = true := by decide
theorem test_entry_range : (Pseudo.entry 65536).wellFormed = false ∧ (Pseudo.entry (-1)).wellFormed = false := by decide
theorem test_cn_operand_of_five_bits :
    (Instr.cn 0x010).wellFormed defaultWidths = false ∧ (Instr.cn 0x00F).wellFormed defaultWidths = true := by decide
theorem test_io_operand_of_five_bits :
    (Instr.io .read ⟨.slot0, 1⟩).wellFormed defaultWidths = false ∧
      (Instr.io .disableInterrupt ⟨.slot3, 0⟩).wellFormed defaultWidths = true := by decide
theorem test_image_too_long : loaderImageWellFormed (List.replicate 4097 0) = false := by
  rw [loaderImageWellFormed, List.length_replicate]; decide
theorem test_payload_too_long : payloadWellFormed (List.replicate 256 0) = false := by
  rw [payloadWellFormed, List.length_replicate]; decide

/-! ### Decoding: a word of each constructor, written out from R57, R58, R64 and R66 -/

theorem test_decode_jp : decode defaultWidths [0x02, 0x0A] = .ok (.jp 0x20A, []) := rfl
theorem test_decode_jz : decode defaultWidths [0x12, 0x0A] = .ok (.jz 0x20A, []) := rfl
theorem test_decode_jn : decode defaultWidths [0x24, 0x16] = .ok (.jn 0x416, []) := rfl
theorem test_decode_cn : decode defaultWidths [0x32, 0x87] = .ok (.cn 2, [0x87]) := rfl
theorem test_decode_add : decode defaultWidths [0x40, 0x05] = .ok (.add 0x005, []) := rfl
theorem test_decode_sub : decode defaultWidths [0x5F, 0xF0] = .ok (.sub 0xFF0, []) := rfl
theorem test_decode_mul : decode defaultWidths [0x6F, 0xFF] = .ok (.mul 0xFFF, []) := rfl
theorem test_decode_div : decode defaultWidths [0x70, 0x02] = .ok (.div 0x002, []) := rfl
theorem test_decode_ld : decode defaultWidths [0x8F, 0xF9] = .ok (.ld 0xFF9, []) := rfl
theorem test_decode_mm : decode defaultWidths [0x93, 0x00] = .ok (.mm 0x300, []) := rfl
theorem test_decode_sc : decode defaultWidths [0xA4, 0x10] = .ok (.sc 0x410, []) := rfl
theorem test_decode_os : decode defaultWidths [0xB0, 0x0F] = .ok (.os 0x00F, []) := rfl
theorem test_decode_io_read : decode defaultWidths [0xC1] = .ok (.io .read ⟨.slot1, 0⟩, []) := rfl
theorem test_decode_io_write : decode defaultWidths [0xC4] = .ok (.io .write ⟨.slot0, 0⟩, []) := rfl
theorem test_decode_io_enable : decode defaultWidths [0xCA] = .ok (.io .enableInterrupt ⟨.slot2, 0⟩, []) := rfl
theorem test_decode_io_disable : decode defaultWidths [0xCF] = .ok (.io .disableInterrupt ⟨.slot3, 0⟩, []) := rfl
theorem test_decode_d0 : decode defaultWidths [0xD0, 0x00] = .error (.illegalOpcode 0xD) := rfl
theorem test_decode_ff : decode defaultWidths [0xFF] = .error (.illegalOpcode 0xF) := rfl
theorem test_decode_cut_short : decode defaultWidths [0x80] = .error .truncated := rfl

theorem test_table_word : decodeTableWord 16 0x800A = some (.ld 0x00A) ∧ decodeTableWord 8 0x32 = some (.cn 2) := by decide

/-! ### One step each (V-DEC to V-SYS) -/

theorem test_fetch_fills_ir :
    look (fun t => (t.ir, t.pc)) (step (st 0x100 0 false [(0x100, 0x32)])) = some (0x3200, 0x101) := by decide

theorem test_jp_indirect :
    look (fun t => (t.pc, t.ind)) (step (st 0x100 0 true [(0x100, 0x02), (0x200, 0x12), (0x201, 0x34)])) =
      some (0x234, false) := by decide

theorem test_jp_pointer_overruns :
    look (fun t => (t.pc, t.ind, t.faultRec)) (step (st 0x100 0 true [(0x100, 0x0F), (0x101, 0xFF)])) =
      some (0x100, true, some ⟨.bankOverrun, 0x100⟩) := by decide

theorem test_jz_not_taken_consumes_ind :
    look (fun t => (t.pc, t.ind)) (step (st 0x100 1 true [(0x100, 0x13), (0x301, 0x50)])) = some (0x102, false) := by
  decide

theorem test_jz_taken : look (·.pc) (step (st 0x100 0 false [(0x100, 0x12), (0x101, 0x0A)])) = some 0x20A := by decide

theorem test_jn_taken_on_80 :
    look (·.pc) (step (st 0x100 0x80 false [(0x100, 0x22), (0x101, 0x0A)])) = some 0x20A := by decide

theorem test_jn_not_taken_on_7f :
    look (·.pc) (step (st 0x100 0x7F false [(0x100, 0x22), (0x101, 0x0A)])) = some 0x102 := by decide

theorem test_cn_halt :
    look (fun t => (t.vmState, t.haltCause, t.pc)) (step (st 0x100 0 false [(0x100, 0x30)])) =
      some (.halted, .cnHalt, 0x101) := by decide

theorem test_cn_warns :
    look (fun t => (t.diag, t.pc)) (step (st 0x100 0 false [(0x100, 0x3F)])) =
      some ([.warn (.cnUnimplemented 0xF)], 0x101) := by decide

theorem test_add_wraps : look (·.acc) (exec (.add 0xFFF) (st 0x100 0x80 false [])) = some 0x7F := by decide

theorem test_add_indirect :
    look (fun t => (t.acc, t.ind)) (exec (.add 0x200) (st 0x100 1 true [(0x200, 0xF0), (0x201, 0x05)])) =
      some (0x06, false) := by decide

theorem test_sub_wraps : look (·.acc) (exec (.sub 0xFFF) (st 0x100 0x7F false [])) = some 0x80 := by decide

theorem test_mul_wraps : look (·.acc) (exec (.mul 0x081) (st 0x100 0xFE false [])) = some 0xFE := by decide

/-- `OPERAND_SOURCE = memory_byte` (R82): the operand value is the byte at the resolved address. -/
theorem test_mul_of_memory_byte :
    look (·.acc) (exec (.mul 0x300)
      { st 0x100 0x03 false [(0x300, 0x05)] with params := { defaultParams with operandSource := .memoryByte } }) =
      some 0x0F := by decide

/-- `INSN_WIDTH` with a one-byte `-` (R62, R73, R78): the byte 0x53 is `- 3`. -/
theorem test_sub_of_one_byte :
    look (fun t => (t.acc, t.ir, t.pc))
      (step { st 0x100 0x05 false [(0x100, 0x53), (0x101, 0xFF)] with
        params := { defaultParams with widths := { defaultWidths with sub := .one } } }) =
      some (0x02, 0x5300, 0x101) := by decide

theorem test_div_floors : look (·.acc) (exec (.div 0x002) (st 0x100 0xF9 false [])) = some 0xFC := by decide

theorem test_div_by_zero :
    look (fun t => (t.acc, t.ind, t.pc, t.faultRec)) (exec (.div 0x200) (st 0x100 0x10 true [(0x200, 0xF0)])) =
      some (0x10, true, 0x100, some ⟨.divideByZero, 0x100⟩) := by decide

theorem test_ld_low_byte : look (·.acc) (exec (.ld 0xFF9) (st 0x100 0 false [])) = some 0xF9 := by decide

theorem test_ld_indirect :
    look (fun t => (t.acc, t.ind)) (exec (.ld 0x200) (st 0x100 0 true [(0x200, 0x12), (0x201, 0x34)])) =
      some (0x34, false) := by decide

theorem test_mm_indirect :
    look (fun t => (t.mem.cells, t.ind)) (exec (.mm 0x300) (st 0x100 0x55 true [(0x300, 0xA3), (0x301, 0x21)])) =
      some ([(0x300, 0xA3), (0x301, 0x21), (0x321, 0x55)], false) := by decide

theorem test_mm_of_zero_lists_nothing :
    look (·.mem.cells) (exec (.mm 0x300) (st 0x100 0 false [(0x300, 0xA3)])) = some [] := by decide

theorem test_sc_keeps_ind :
    look (fun t => (t.mem.cells, t.pc, t.ind)) (exec (.sc 0x410) (st 0x402 0 true [])) =
      some ([(0x410, 0x04), (0x411, 0x04)], 0x412, true) := by decide

theorem test_sc_at_the_end :
    look (fun t => (t.mem.cells, t.pc)) (exec (.sc 0x100) (st 0xFFE 0 false [])) = some ([(0x100, 0x10)], 0x102) := by
  decide

theorem test_os_dump :
    look (fun t => (t.diag, t.pc)) (exec (.os 0) (st 0x300 0xFE false [])) = some ([.dump (-2) 254 0x302], 0x302) := by
  decide

theorem test_os_halt_in_loading :
    look (fun t => (t.vmState, t.haltCause)) (exec (.os 0x00F) { st 0x300 0 false [] with vmState := .loading }) =
      some (.idle, .none) := by decide

/-- A state with slot 2 bound to an input and an output. -/
def stIo (bytes : List Byte) : State :=
  { st 0x300 0x42 false [] with
    slots := ⟨⟨some ⟨[], 0⟩, some []⟩, ⟨none, none⟩, ⟨some ⟨bytes, 0⟩, some [0x01]⟩, ⟨none, none⟩⟩ }

theorem test_io_read :
    look (fun t => (t.acc, t.slots.slot2.inp, t.pc)) (exec (.io .read ⟨.slot2, 0⟩) (stIo [0x41, 0x42])) =
      some (0x41, some ⟨[0x41, 0x42], 1⟩, 0x301) := by decide

theorem test_io_write : look (·.slots.slot2.out) (exec (.io .write ⟨.slot2, 0⟩) (stIo [])) = some (some [0x01, 0x42]) := by decide

theorem test_fault_codes :
    [FaultCause.illegalOpcode, .deviceAbsent, .divideByZero, .bankOverrun].map FaultCause.code = [1, 2, 3, 4] := by decide

theorem test_reset_memory : State.reset.mem.wf = true := by decide

theorem test_fetch_word_runs :
    look (fun t => (t.acc, t.pc)) (step (State.reset.withFetchWord 16 0x800A)) = some (0x0A, 0x002) := by decide

/-! ### The assembler and the object blocks (E1, E2, E4, E6) -/

set_option maxRecDepth 10000 in
theorem test_assemble_e2 :
    ((segments defaultWidths ["@ /100".toList, "LD /0A".toList, "OS /F ; stop".toList, "# /100".toList]).toOption) =
      some [[0x01, 0x00, 0x04, 0x80, 0x0A, 0xB0, 0x0F, 0xCA], [0x00, 0x22, 0x02, 0x01, 0x00, 0xFE]] := by decide

set_option maxRecDepth 10000 in
theorem test_assemble_forward_reference :
    ((segments defaultWidths ["@ /100".toList, "JP LATER".toList, "LATER OS /F".toList]).toOption) =
      some [[0x01, 0x00, 0x04, 0x01, 0x02, 0xB0, 0x0F, 0x43]] := by decide

set_option maxRecDepth 10000 in
theorem test_assemble_undefined_label :
    segments defaultWidths ["@ /100".toList, "JP NOWHERE".toList] = .error (2, .undefinedLabel) := by rfl

theorem test_object_block_e1 : (ObjectBlock.mk 0x0010 [0xC8, 0x64]).bytes = [0x00, 0x10, 0x02, 0xC8, 0x64, 0x53] := by
  decide

set_option maxRecDepth 10000 in
theorem test_split_e4 :
    ((splitPayload 0x0200 (List.replicate 300 0x01)).map fun b => (b.start, b.payload.length, checksum b.payload)) =
      [(0x0200, 255, 0xFE), (0x02FF, 45, 0xFE)] := by decide

/-! ### Witnesses: the hypotheses of each statement, met by concrete states -/

theorem witness_EncodeOfDecode : decode defaultWidths [0xC6, 0x99] = .ok (.io .write ⟨.slot2, 0⟩, [0x99]) := rfl

theorem witness_IllegalFirstBytes :
    0xD0 ≤ (0xD0 : Byte).toNat ∧ 0xD0 ≤ (0xFF : Byte).toNat ∧ (0xCF : Byte).toNat < 0xD0 ∧ (0x00 : Byte).toNat < 0xD0 := by
  decide

/-- For `DecodeOfEncode`, at the default widths and with every width the other way round. -/
theorem witness_DecodeOfEncode :
    (Instr.cn 0x00F).wellFormed defaultWidths = true ∧ (Instr.ld 0xFFF).wellFormed defaultWidths = true ∧
    (Instr.cn 0xFFF).wellFormed { defaultWidths with cn := .two } = true ∧
    (Instr.ld 0x00F).wellFormed { defaultWidths with ld := .one } = true := by decide

theorem witness_DefaultParameters :
    State.reset.params = defaultParams ∧ legalOpcode 0x3 = true ∧ legalOpcode 0xC = true ∧ legalOpcode 0x0 = true ∧
      legalOpcode 0xB = true := by decide

theorem witness_AssembledOperationDecodes :
    legalOpcode 0x0 = true ∧ legalOpcode 0x3 = true ∧ legalOpcode 0xB = true ∧ legalOpcode 0xC = true := by decide

theorem st_executing (pc : Word) (acc : Byte) (ind : Bool) (cells : List Host.Cell) : (st pc acc ind cells).executing :=
  ⟨rfl, .inr rfl⟩

/-- A two-byte instruction that just fits at the end of the bank. -/
theorem witness_StepRunsDecodedInstruction_two_bytes :
    let s := st 0xFFE 0 false [(0xFFE, 0x80), (0xFFF, 0x0A)]
    s.executing ∧ decode s.params.widths [s.byteAt s.pc.toNat, s.byteAt (s.pc.toNat + 1)] = .ok (.ld 0x00A, []) ∧
      s.pc.toNat + ((Instr.ld 0x00A).width s.params.widths).bytes ≤ 4096 := ⟨st_executing .., rfl, by decide⟩

/-- A one-byte instruction at the last offset. -/
theorem witness_StepRunsDecodedInstruction_one_byte :
    let s := st 0xFFF 0 false [(0xFFF, 0x32)]
    s.executing ∧ decode s.params.widths [s.byteAt s.pc.toNat, s.byteAt (s.pc.toNat + 1)] = .ok (.cn 2, [0x00]) ∧
      s.pc.toNat + ((Instr.cn 2).width s.params.widths).bytes ≤ 4096 := ⟨st_executing .., rfl, by decide⟩

theorem witness_FetchFaultsInOrder_past_the_bank :
    let s := st 0x1000 0 false []
    s.executing ∧ 0x0FFF < s.pc.toNat := ⟨st_executing .., by decide⟩

theorem witness_FetchFaultsInOrder_illegal :
    let s := st 0xFFF 0 false [(0xFFF, 0xD5)]
    s.executing ∧ s.pc.toNat ≤ 0x0FFF ∧ 0xD0 ≤ (s.byteAt s.pc.toNat).toNat := ⟨st_executing .., by decide, by decide⟩

theorem witness_FetchFaultsInOrder_second_byte :
    let s := st 0xFFF 0 false [(0xFFF, 0x80)]
    s.executing ∧ s.pc.toNat = 0x0FFF ∧ s.params.widths.lookup (opcodeOf (s.byteAt s.pc.toNat)) = some .two :=
  ⟨st_executing .., by decide, by decide⟩

/-- A running state with its `run`, a loading one with its `load`, the idle state after reset, and a halted state whose
command has ended. -/
theorem witness_CoreStepsExactly :
    let met := fun s : State => s.hostIn = [] ∧ (s.vmState = .idle → ∀ left, s.command ≠ .load left) ∧
      (s.vmState = .halted → s.command ≠ .run ∧ ∀ left, s.command ≠ .load left)
    (met (st 0x100 0 false []) ∧ (st 0x100 0 false []).command = .run) ∧
    met { st 0x100 0 false [] with vmState := .loading, command := .load [] } ∧ met State.reset ∧
    met { st 0x100 0 false [] with vmState := .halted, haltCause := .osHalt, command := .ended .completed } :=
  ⟨⟨⟨rfl, nofun, nofun⟩, rfl⟩, ⟨rfl, nofun, nofun⟩, ⟨rfl, nofun, nofun⟩, ⟨rfl, nofun, fun _ => ⟨nofun, nofun⟩⟩⟩

theorem witness_StoreIsFetchedByTheNextStep :
    let s := st 0x100 0x31 false []
    s.executing ∧ s.ind = false ∧ (0x102 : Field).toNat = (s.pcAfter 0x9).toNat ∧
      (Instr.cn 1).wellFormed s.params.widths = true ∧ encode s.params.widths (.cn 1) = [s.acc] :=
  ⟨st_executing .., rfl, by decide, by decide, rfl⟩

theorem witness_FaultsArePrecise :
    let s := st 0x1000 0 false []
    s.executing ∧ s.haltCause ≠ .fault ∧ ∃ t, step s = .next t ∧ t.haltCause = .fault :=
  ⟨st_executing .., by decide, _, rfl, rfl⟩

/-- JP, JZ, JN, +, -, *, /, LD and MM resolve directly, through the last pointer of a bank, and past it; / also to 0. -/
theorem witness_resolution :
    effectiveOperand (st 0x100 0 false []) 0xFFF = some 0xFFF ∧ effectiveValue (st 0x100 0 false []) 0xFFF = some 0xFFF ∧
    effectiveOperand (st 0x100 0 true [(0xFFE, 0xA3), (0xFFF, 0x21)]) 0xFFE = some 0x321 ∧
    effectiveOperand (st 0x100 0 true []) 0xFFF = none ∧ effectiveValue (st 0x100 0 true []) 0xFFF = none ∧
    effectiveValue (st 0x100 0 false []) 0x000 = some 0 := by decide

/-- For `CnRule`, `OsRule` and the range of `ScRule`. -/
theorem witness_operand_cases :
    3 ≤ (3 : Field).toNat ∧ 3 ≤ (15 : Field).toNat ∧ (0xFFE : Field) ≠ 0xFFF ∧ (0x10F : Field) ≠ 0x000 ∧
      (0x10F : Field) ≠ 0x00F := by decide

theorem witness_OsRule :
    (st 0x300 0 false []).vmState = .running ∧ ({ st 0x300 0 false [] with vmState := .loading } : State).vmState = .loading :=
  ⟨rfl, rfl⟩

theorem witness_ArithmeticUsesOperandModulo256 :
    effectiveValue (st 0x100 5 false []) 0x005 = some 0x005 ∧ effectiveValue (st 0x100 5 false []) 0x105 = some 0x105 ∧
      0x005 % 256 = 0x105 % 256 := by decide

theorem witness_LoadReadsMemory :
    ((st 0x100 0 true []).params.operandSource = .resolvedValue ∧ (st 0x100 0 true []).ind = true ∧
      (0xFFE : Field) ≠ 0xFFF) ∧
    (let s := { st 0x100 0 false [] with params := { defaultParams with operandSource := .memoryByte } }
     s.params.operandSource = .memoryByte ∧ s.ind = false) := by decide

theorem witness_MmRule :
    ∃ ea u, resolve 0xFFE ((st 0x100 7 true [(0xFFE, 0x0F), (0xFFF, 0xFF)]).fetched (.mm 0xFFE)) = .ok (ea, u) ∧ ea = 0xFFF :=
  ⟨_, _, rfl, rfl⟩

theorem witness_CallAndReturn :
    ∃ t, exec (.sc 0x410) (st 0x402 0 false []) = .next t ∧ (0x410 : Field) ≠ 0xFFF ∧ t.bank = t.bank :=
  ⟨_, rfl, by decide, rfl⟩

theorem witness_IoRule :
    ((stIo [0x41]).slots.get .slot2).inp = some ⟨[0x41], 0⟩ ∧ (⟨[0x41], 0⟩ : InStream).bytes[0]? = some 0x41 ∧
    ((stIo []).slots.get .slot2).inp = some ⟨[], 0⟩ ∧ ([] : List Byte)[0]? = none ∧
    ((stIo []).slots.get .slot2).out = some [0x01] ∧ ((stIo []).slots.get .slot1).inp = none ∧
    ((stIo []).slots.get .slot1).out = none := by decide

theorem witness_WideOperandRule :
    16 ≤ (0x010 : Field).toNat ∧ ∃ t, exec (.io .write ⟨.slot2, 0⟩) (stIo []) = .next t := ⟨by decide, _, rfl⟩

theorem witness_IndirectFlagRule :
    (∃ t, exec (.cn 2) (st 0x100 0 false []) = .next t ∧ t.haltCause ≠ .fault) ∧
    (∃ t, exec (.ld 0x00A) (st 0x100 0 false []) = .next t ∧ t.haltCause ≠ .fault ∧ resolves (.ld 0x00A) = true) ∧
    (∃ t, exec (.sc 0x410) (st 0x100 0 true []) = .next t ∧ t.haltCause ≠ .fault ∧ resolves (.sc 0x410) = false) ∧
    (st 0x100 0 true []).haltCause ≠ .fault :=
  ⟨⟨_, rfl, by decide⟩, ⟨_, rfl, by decide, rfl⟩, ⟨_, rfl, by decide, rfl⟩, by decide⟩

theorem witness_OnlyMmAndScWriteMemory :
    ∃ t, exec (.mm 0x300) (st 0x100 2 false []) = .next t ∧ t.mem ≠ (st 0x100 2 false []).mem := ⟨_, rfl, by decide⟩

theorem witness_OnlyNamedInstructionsWriteAcc :
    ∃ t, exec (.ld 0x00A) (st 0x100 2 false []) = .next t ∧ t.acc ≠ (st 0x100 2 false []).acc := ⟨_, rfl, by decide⟩

theorem witness_OnlyIoReachesSlots :
    ∃ t, exec (.io .write ⟨.slot2, 0⟩) (stIo []) = .next t ∧ t.slots ≠ (stIo []).slots ∧ SlotId.slot1 ≠ .slot2 :=
  ⟨_, rfl, by decide, by decide⟩

theorem witness_NoInstructionWritesBank : ∃ t, exec (.os 0) (st 0x100 0 false []) = .next t := ⟨_, rfl⟩

/-- For `LoadingAndRunningAgree`: an instruction that goes on, and one that halts. -/
theorem witness_LoadingAndRunningAgree :
    (Instr.mm 0x300 ≠ .os 0x00F ∧ ∃ t, exec (.mm 0x300) { st 0x100 2 false [] with vmState := .running } = .next t) ∧
    (Instr.cn 0 ≠ .os 0x00F ∧ ∃ t, exec (.cn 0) { st 0x100 2 false [] with vmState := .running } = .next t) :=
  ⟨⟨by decide, _, rfl⟩, by decide, _, rfl⟩

/-- For `DiagnosticsAreNotObserved`, `DiagnosticsOnlyGrow`, `VmStateFollowsTheTable`, `NoStepWritesParameters` and `UpperBanksNeverChange`. -/
theorem witness_step :
    let s := st 0x100 0 false [(0x100, 0x35)]
    s.bank = 0 ∧ (∃ t, step s = .next t) ∧ ∀ rest, s.hostIn ≠ some .reset :: rest :=
  ⟨rfl, ⟨_, rfl⟩, fun _ h => by simp [st, State.reset, State.resetFrom] at h⟩

theorem witness_HaltedIsTerminal :
    let s := { st 0x100 0 false [] with vmState := .halted, haltCause := .fault, command := .load [] }
    s.vmState = .halted ∧ (∃ t, step s = .next t) ∧ ∀ rest, s.hostIn ≠ some .reset :: rest :=
  ⟨rfl, ⟨_, rfl⟩, fun _ h => by simp [st, State.reset, State.resetFrom] at h⟩

theorem witness_LoadingIsEnteredByLoad :
    let s := { State.reset with hostIn := [some (.load [[0x01]])] }
    s.vmState ≠ .loading ∧ ∃ t, step s = .next t ∧ t.vmState = .loading := ⟨by decide, _, rfl, rfl⟩

theorem witness_MemoriesWithEqualReadsAreEqual :
    (Memory.mk [(0xFFFF, 1)]).wf = true ∧ ((Memory.mk []).write 0xFFFF 1).wf = true ∧
      ∀ a, a < 65536 → (Memory.mk [(0xFFFF, 1)]).read a = ((Memory.mk []).write 0xFFFF 1).read a :=
  ⟨by decide, by decide, fun _ _ => rfl⟩

theorem witness_ResetState : (List.replicate 4096 (0x01 : Byte)).length ≤ 4096 := by rw [List.length_replicate]

/-- For `HostResetRule`, `RunRule` and `LoadRule`. -/
theorem witness_host_commands :
    ({ st 0x100 0 true [] with hostIn := [some .reset] } : State).hostIn = some .reset :: [] ∧
    (let s := { State.reset with hostIn := [some .run, none] }
     s.hostIn = some .run :: [none] ∧ s.vmState = .idle ∧ s.command.inProgress = false) ∧
    (let s := { State.reset with hostIn := [some (.load [[0x01], []])] }
     s.hostIn = some (.load [[0x01], []]) :: [] ∧ s.vmState = .idle ∧ s.command.inProgress = false) := by decide

theorem witness_SegmentEndRule :
    let s := fun left => { State.reset with command := Command.load left }
    ((s []).hostIn = [] ∧ (s []).vmState = .idle) ∧ (s [[0x02]]).hostIn = [] ∧ (s [[0x02]]).command = .load [[0x02]] := by
  decide

theorem witness_RefusedCommandsChangeNothing :
    let s := { st 0x100 0 false [] with hostIn := [some (.load [])] }
    s.hostIn = some (.load []) :: [] ∧ s.vmState ≠ .idle ∧ s.command.inProgress = true := by decide

theorem witness_CancelRule :
    let s := fun vm cause command =>
      { st 0x100 0 false [] with vmState := vm, haltCause := cause, command := command, hostIn := [some .cancel] }
    (s .running .none .run).vmState ≠ .halted ∧
    ((s .halted .cnHalt .held).vmState = .halted ∧ (s .halted .cnHalt .held).haltCause = .cnHalt ∧
      (s .halted .cnHalt .held).command = .held) ∧
    (s .halted .cnHalt (.load [])).command = .load [] ∧ (s .halted .cnHalt (.ended .cancelled)).command.inProgress = false ∧
    (s .halted .osHalt .run).vmState = .halted ∧ (s .halted .osHalt .run).haltCause ≠ .cnHalt := by decide

theorem witness_CommandEndRule :
    let s := fun cause command => { st 0x100 0 false [] with vmState := .halted, haltCause := cause, command := command }
    ((s .osHalt .run).hostIn = [] ∧ (s .osHalt .run).vmState = .halted ∧ (s .osHalt .run).haltCause = .osHalt) ∧
    ((s .fault (.load [])).command = .load [] ∧ (s .fault (.load [])).haltCause = .fault) ∧
    (s .cancelled .run).haltCause = .cancelled ∧ (s .cnHalt .run).haltCause = .cnHalt := by decide

theorem witness_BindingRule :
    let s := fun vm c => { State.reset with vmState := vm, hostIn := [some c] }
    ((s .idle (.bindIn .slot2 [0x01])).vmState = .idle ∧ SlotId.slot2 ≠ .slot0 ∧
      (s .idle (.bindIn .slot2 [0x01])).hostIn = some (.bindIn .slot2 [0x01]) :: []) ∧
    ((s .idle (.bindOut .slot1)).hostIn = some (.bindOut .slot1) :: []) ∧
    ((s .idle (.unbindIn .slot3)).hostIn = some (.unbindIn .slot3) :: []) ∧
    ((s .idle (.unbindOut .slot3)).hostIn = some (.unbindOut .slot3) :: []) ∧
    ((s .running (.bindIn .slot2 [])).vmState ≠ .idle ∧
      (s .running (.bindIn .slot2 [])).hostIn = some (.bindIn .slot2 []) :: []) ∧
    ((s .halted (.unbindOut .slot1)).vmState ≠ .idle ∧
      (s .halted (.unbindOut .slot1)).hostIn = some (.unbindOut .slot1) :: []) ∧
    ((s .idle (.unbindIn .slot0)).vmState = .idle ∧
      (s .idle (.unbindIn .slot0)).hostIn = some (.unbindIn .slot0) :: []) := by decide

/-- A state that meets the invariant and takes a step, into `running`. -/
theorem witness_StepKeepsTheInvariant :
    let s := { State.reset with hostIn := [some .run] }
    s.Inv ∧ ∃ t, step s = .next t ∧ t.vmState = .running :=
  ⟨⟨by decide, rfl, fun _ _ => rfl, by decide, by decide, ⟨rfl, rfl⟩,
      fun d st h => by cases d <;> simp [State.reset, State.resetFrom, Slots.get] at h; simp [← h],
      fun h => absurd h (by decide), fun h => absurd h (by decide)⟩, _, rfl, rfl⟩

theorem witness_ObjectBlockReadsBack : (ObjectBlock.mk 0x0123 (List.replicate 255 0x01)).payload.length ≤ 255 := by
  rw [List.length_replicate]

end Sys2Proof.Tests
end

namespace Sys2Proof

/-! ### Decoding an encoding -/

/-- The first byte of an encoding tells its width (R60). -/
theorem widthOf_irWord (ws : InsnWidths) (i : Instr) : widthOf ws (highByte (i.irWord ws)) = .ok (i.width ws) := by
  rw [widthOf, Instr.irWord, opcodeOf_irWordOf, lookup_opcode]

/-- `IR[15:12]` is the opcode of its high byte (R60, R62). -/
theorem opcodeOf_highByte_eq (w : Word) : opcodeOf (highByte w) = w.extractLsb' 12 4 := by
  ext k hk
  simp [opcodeOf, highByte, show 4 + k < 8 by omega, show 8 + (4 + k) = 12 + k by omega]

/-- A bit of the byte `opcode ++ sub`. -/
theorem getLsbD_opcodeSub (op n : Nibble) (k : Nat) :
    (op ++ n : Byte).getLsbD k = if k < 4 then n.getLsbD k else op.getLsbD (k - 4) := BitVec.getLsbD_append

/-- `sub` is the low half of the high byte (R58, R62). -/
theorem subOf_wordOf (op n : Nibble) (b : Byte) : subOf (wordOf (op ++ n) b) = n := by
  ext k hk
  simp [subOf, getLsbD_wordOf, getLsbD_opcodeSub, hk]

/-- The operand read back from `IR` is the one put there, when it fits the format (R57, R58, R63). -/
theorem operandOf_irWordOf {w : OpWidth} {x : Field} (op : Nibble) (h : operandFits w x = true) :
    operandOf w (irWordOf w op x) = x := by
  cases w with
  | two => exact low12_append op x
  | one =>
    have hx : x.toNat < 2 ^ 4 := by simpa [operandFits] using h
    rw [operandOf, irWordOf, subOf_wordOf]
    apply BitVec.eq_of_toNat_eq
    simp only [BitVec.toNat_setWidth]
    omega

/-- A slot operand has 4 bits exactly when the 8 bits above `t ++ d` are 0 (R66). -/
theorem io_operand_lt_iff (op : IoOp) (d : SlotOperand) : (Instr.io op d).operand.toNat < 16 ↔ d.high = 0 := by
  have hop : (Instr.io op d).operand.toNat = d.high.toNat * 16 + (ioOpBits op ++ slotBits d.id).toNat := by
    have hl : (ioOpBits op ++ slotBits d.id).toNat < 2 ^ 4 := (ioOpBits op ++ slotBits d.id).isLt
    rw [Instr.operand, BitVec.toNat_append, ← Nat.shiftLeft_add_eq_or_of_lt hl, Nat.shiftLeft_eq]
  have hl : (ioOpBits op ++ slotBits d.id).toNat < 16 := (ioOpBits op ++ slotBits d.id).isLt
  rw [← BitVec.toNat_inj, hop, show (0 : Byte).toNat = 0 from rfl]
  omega

/-- An instruction is well formed when its operand fits its format (R57, R58, R69). -/
theorem wellFormed_eq_operandFits (ws : InsnWidths) (i : Instr) :
    i.wellFormed ws = operandFits (i.width ws) i.operand := by
  cases i with
  | io op d =>
    rw [Bool.eq_iff_iff]
    simp [Instr.wellFormed, operandFits, Instr.width, io_operand_lt_iff]
  | _ => rfl

/-- Dispatch on the word of a well-formed instruction gives that instruction (R79). -/
theorem decodeIR_irWord {ws : InsnWidths} {i : Instr} (h : i.wellFormed ws = true) :
    decodeIR (i.width ws) (i.irWord ws) = .ok i := by
  rw [wellFormed_eq_operandFits] at h
  rw [decodeIR, ← opcodeOf_highByte_eq, Instr.irWord, opcodeOf_irWordOf, operandOf_irWordOf _ h, instrOf_operand]

/-- The bytes of a one-byte instruction word refill `IR` (R62). -/
theorem irOf_one_irWordOf (op : Nibble) (x : Field) :
    irOf .one (highByte (irWordOf .one op x)) 0x00 = irWordOf .one op x := by
  rw [irWordOf, highByte_wordOf, irOf]

/-- Decoding bytes that begin with an encoding is dispatch on the instruction's word. -/
theorem decode_encode_append (ws : InsnWidths) (i : Instr) (rest : List Byte) :
    decode ws (encode ws i ++ rest) = (decodeIR (i.width ws) (i.irWord ws)).map fun j => (j, rest) := by
  have hw := widthOf_irWord ws i
  cases h : i.width ws with
  | one =>
    rw [h] at hw
    have hir : irOf .one (highByte (i.irWord ws)) 0x00 = i.irWord ws := by
      rw [Instr.irWord, h, irOf_one_irWordOf]
    simp only [encode, h, bytesOf, List.cons_append, List.nil_append, decode, hw, hir]
  | two =>
    rw [h] at hw
    simp only [encode, h, bytesOf, List.cons_append, List.nil_append, decode, hw, irOf, wordOf_highByte_lowByte]

/-- Settles O2. Decoding an encoding dispatches on the instruction's own word, and a well-formed operand survives the
format it was put in. -/
theorem decodeOfEncode : Obligations.DecodeOfEncode := by
  unfold Obligations.DecodeOfEncode
  intro ws i rest h
  rw [decode_encode_append, decodeIR_irWord h, Except.map]

end Sys2Proof

namespace Sys2Proof.Machine

/-! ### The parameters at their defaults -/

/-- At the default widths CN and IO alone take one byte (R59). -/
theorem lookup_defaultWidths_eq_one (op : Nibble) :
    defaultWidths.lookup op = some .one ↔ op = 0x3 ∨ op = 0xC := by
  revert op; decide

/-- Settles O59: the width table decides `PC` and `IR`, and `resolvedValue` is the resolved operand. -/
theorem defaultParameters : Obligations.DefaultParameters := by
  unfold Obligations.DefaultParameters
  refine ⟨rfl, fun s hs => ⟨fun op _ hop => ?_, fun op _ h3 hC => ?_, fun ea => ?_⟩⟩
  · have hw : s.params.widths.lookup op = some .one := by
      rw [hs]; exact (lookup_defaultWidths_eq_one op).2 hop
    refine ⟨by rw [State.pcAfter, if_pos hw], fun sub => ?_⟩
    have hsub : (sub.setWidth 12).setWidth 4 = sub := by
      rw [BitVec.setWidth_setWidth_of_le _ (by decide), BitVec.setWidth_eq]
    rw [State.irFor, if_pos hw, hsub]
  · have hw : s.params.widths.lookup op ≠ some .one := by
      rw [hs]; exact fun h => ((lookup_defaultWidths_eq_one op).1 h).elim h3 hC
    exact ⟨by rw [State.pcAfter, if_neg hw], fun field => by rw [State.irFor, if_neg hw]⟩
  · rw [State.valueAt, hs]; rfl

end Sys2Proof.Machine

namespace Sys2Proof.Machine

/-! ### The step: every way to a next state -/

/-- The state at a boundary after its host input is taken off the queue (R114). -/
def State.popped (s : State) : State := { s with hostIn := s.hostIn.tail }

theorem State.popped_of_nil {s : State} (h : s.hostIn = []) : s.popped = s := by
  rw [State.popped, h, List.tail_nil, ← h]

theorem State.popped_of_cons {s : State} {c : Option HostCommand} {rest : List (Option HostCommand)}
    (h : s.hostIn = c :: rest) : s.popped = { s with hostIn := rest } := by
  rw [State.popped, h, List.tail_cons]

/-- A host input that is due is the whole step (R114). -/
theorem step_of_hostInput {s : State} {c : HostCommand} {rest : List (Option HostCommand)}
    (h : s.hostIn = some c :: rest) : step s = .next (hostCommand c s.popped) := by
  rw [State.popped_of_cons h, step, h]

/-- With no host input due the block takes its own step; a boundary of the host's is passed where it has none (R114). -/
theorem step_of_noHostInput {s : State} (hin : ∀ c rest, s.hostIn ≠ some c :: rest) :
    step s = if s.hostIn ≠ [] ∧ hasStep s.popped = false then .next s.popped else machineStep s.popped := by
  rcases h : s.hostIn with _ | ⟨_ | c, rest⟩
  · simp [step, h, State.popped_of_nil h]
  · cases hs : hasStep { s with hostIn := rest } <;> simp [step, h, State.popped_of_cons h, hs]
  · exact absurd h (hin c rest)

/-- A next state comes from the host input that is due, from a boundary at which nothing happens, or from the block's
own step. -/
theorem step_next {s t : State} (h : step s = .next t) :
    (∃ c rest, s.hostIn = some c :: rest ∧ t = hostCommand c s.popped) ∨ t = s.popped ∨ machineStep s.popped = .next t := by
  by_cases hin : ∃ c rest, s.hostIn = some c :: rest
  · obtain ⟨c, rest, hc⟩ := hin
    rw [step_of_hostInput hc] at h
    cases h
    exact .inl ⟨c, rest, hc, rfl⟩
  · rw [step_of_noHostInput (by simpa using hin)] at h
    split at h
    · cases h
      exact .inr (.inl rfl)
    · exact .inr (.inr h)

/-- The block's own step is the core's in `loading` and `running`, the sequencer's elsewhere (R77). -/
theorem machineStep_next {s t : State} (h : machineStep s = .next t) :
    ((s.vmState = .loading ∨ s.vmState = .running) ∧ coreStep s = .next t) ∨
      ((s.vmState = .idle ∨ s.vmState = .halted) ∧ sequencerStep s = some t) := by
  unfold machineStep at h
  cases hv : s.vmState <;> simp only [hv] at h
  case loading => exact .inl ⟨.inl rfl, h⟩
  case running => exact .inl ⟨.inr rfl, h⟩
  case idle => split at h <;> cases h; exact .inr ⟨.inl rfl, ‹_›⟩
  case halted => split at h <;> cases h; exact .inr ⟨.inr rfl, ‹_›⟩

/-- The sequencer ends a segment of a `load` in `idle` and a command that finds the core halted (R113, R123). -/
theorem sequencerStep_some {s t : State} (h : sequencerStep s = some t) :
    (s.vmState = .idle ∧ ∃ rest, s.command = .load rest ∧ t = segmentDone s rest) ∨
      (s.vmState = .halted ∧ (s.command = .run ∨ ∃ rest, s.command = .load rest) ∧ t = commandHalted s) := by
  unfold sequencerStep at h
  split at h <;> cases h
  · exact .inl ⟨‹_›, _, ‹_›, rfl⟩
  · exact .inr ⟨‹_›, .inr ⟨_, ‹_›⟩, rfl⟩
  · exact .inr ⟨‹_›, .inl ‹_›, rfl⟩

/-! ### The effects in closed form -/

theorem jumpEffect_eq (taken : State → Bool) (field : Field) (s : State) :
    jumpEffect taken field s =
      match effectiveOperand s field with
      | some ea => .ok (if taken (s.setInd false) then (s.setInd false).setPc (zext16 ea) else s.setInd false)
      | none => .error .bankOverrun := by
  rw [jumpEffect, resolve_eq]
  cases effectiveOperand s field <;> rfl

theorem aluEffect_eq (f : Int → Nat → Except FaultCause Int) (field : Field) (s : State) :
    aluEffect f field s =
      match effectiveValue s field with
      | some v => (f (sval s.acc) v).map fun r => (s.setInd false).setAcc (bits8 r)
      | none => .error .bankOverrun := by
  rw [aluEffect, operandValue_eq]
  cases effectiveValue s field with
  | none => rfl
  | some v =>
    simp only [State.setInd_acc]
    cases f (sval s.acc) v <;> rfl

theorem loadEffect_eq (field : Field) (s : State) :
    loadEffect field s =
      match effectiveValue s field with
      | some v => .ok ((s.setInd false).setAcc (bits8 v))
      | none => .error .bankOverrun := by
  rw [loadEffect, operandValue_eq]
  cases effectiveValue s field <;> rfl

/-- A field has 12 bits, so the byte at a resolved operand never overruns the bank (R45). -/
theorem toNat_le_lastOffset (f : Field) : f.toNat ≤ Config.lastOffset := by
  have := f.isLt
  simp only [Config.lastOffset]
  omega

theorem storeEffect_eq (field : Field) (s : State) :
    storeEffect field s =
      match effectiveOperand s field with
      | some ea =>
        .ok (((s.setInd false).setMem (s.mem.write (busAddr s.bank (zext16 ea)).toNat s.acc)).report
          (boundaryCheck s.vmState (busAddr s.bank (zext16 ea))))
      | none => .error .bankOverrun := by
  rw [storeEffect, resolve_eq]
  cases effectiveOperand s field with
  | none => rfl
  | some ea => simp [memWrite1_eq, toNat_le_lastOffset]

theorem callEffect_eq (field : Field) (s : State) :
    callEffect field s =
      if field.toNat + 1 ≤ Config.lastOffset then
        .ok (((s.setMem ((s.mem.write (busAddr s.bank (zext16 field)).toNat (highByte s.pc)).write
            (busAddr s.bank (zext16 field + 1)).toNat (lowByte s.pc))).report
          (boundaryCheck s.vmState (busAddr s.bank (zext16 field)) ++
            boundaryCheck s.vmState (busAddr s.bank (zext16 field + 1)))).setPc (zext16 field + 2))
      else .error .bankOverrun := by
  rw [callEffect, memWrite2_eq, zext16_toNat]
  by_cases h : field.toNat + 1 ≤ Config.lastOffset
  · simp only [if_pos h]
  · simp only [if_neg h]

/-! ### What no instruction writes -/

/-- The parameters of the block, fixed before reset (R8, R18). -/
def State.fixed (s : State) : List Byte × Params := (s.loaderImage, s.params)

/-- What no instruction writes: the parameters, `BANK` (R22), and the host's side of the model (log entries 6, 7). -/
def State.frame (s : State) : (List Byte × Params) × Nibble × Command × List (Option HostCommand) :=
  (s.fixed, s.bank, s.command, s.hostIn)

@[simp] theorem State.frame_setAcc (s : State) (v : Byte) : (s.setAcc v).frame = s.frame := rfl
@[simp] theorem State.frame_setPc (s : State) (v : Word) : (s.setPc v).frame = s.frame := rfl
@[simp] theorem State.frame_setInd (s : State) (v : Bool) : (s.setInd v).frame = s.frame := rfl
@[simp] theorem State.frame_setMem (s : State) (m : Memory) : (s.setMem m).frame = s.frame := rfl
@[simp] theorem State.frame_report (s : State) (e : List DiagEvent) : (s.report e).frame = s.frame := rfl
@[simp] theorem State.frame_setIn (s : State) (d : SlotId) (x : Option InStream) : (s.setIn d x).frame = s.frame := rfl
@[simp] theorem State.frame_setOut (s : State) (d : SlotId) (x : Option (List Byte)) :
    (s.setOut d x).frame = s.frame := rfl
@[simp] theorem State.frame_fetched (s : State) (i : Instr) : (s.fetched i).frame = s.frame := rfl

theorem jumpEffect_frame {taken : State → Bool} {field : Field} {s t : State} (h : jumpEffect taken field s = .ok t) :
    t.frame = s.frame := by
  rw [jumpEffect_eq] at h
  split at h <;> cases h
  split <;> simp

theorem aluEffect_frame {f : Int → Nat → Except FaultCause Int} {field : Field} {s t : State}
    (h : aluEffect f field s = .ok t) : t.frame = s.frame := by
  rw [aluEffect_eq] at h
  split at h
  · next v _ =>
    cases hr : f (sval s.acc) v <;> rw [hr] at h <;> cases h
    simp
  · cases h

theorem loadEffect_frame {field : Field} {s t : State} (h : loadEffect field s = .ok t) : t.frame = s.frame := by
  rw [loadEffect_eq] at h
  split at h <;> cases h
  simp

theorem storeEffect_frame {field : Field} {s t : State} (h : storeEffect field s = .ok t) : t.frame = s.frame := by
  rw [storeEffect_eq] at h
  split at h <;> cases h
  simp

theorem callEffect_frame {field : Field} {s t : State} (h : callEffect field s = .ok t) : t.frame = s.frame := by
  rw [callEffect_eq] at h
  split at h <;> cases h
  simp

theorem controlEffect_frame (sub : Field) (s : State) : (controlEffect sub s).frame = s.frame := by
  unfold controlEffect
  split <;> rfl

theorem systemCallEffect_frame (field : Field) (s : State) : (systemCallEffect field s).frame = s.frame := by
  unfold systemCallEffect osHaltEffect
  split
  · rfl
  · split <;> rfl
  · rfl

theorem ioEffect_frame {op : IoOp} {d : SlotId} {s t : State} (h : ioEffect op d s = .ok t) : t.frame = s.frame := by
  cases op with
  | read =>
    rw [ioEffect, slotRead_eq] at h
    cases hi : (s.slots.get d).inp <;> rw [hi] at h <;> cases h
    simp
  | write =>
    rw [ioEffect, slotWrite_eq] at h
    cases ho : (s.slots.get d).out <;> rw [ho] at h <;> cases h
    simp
  | enableInterrupt => cases h; rfl
  | disableInterrupt => cases h; rfl

/-- No instruction writes the frame. -/
theorem instrEffect_frame {i : Instr} {s t : State} (h : instrEffect i s = .ok t) : t.frame = s.frame := by
  rw [← State.frame_fetched s i]
  cases i with
  | jp | jz | jn => exact jumpEffect_frame h
  | add | sub | mul | div => rw [instrEffect] at h; exact aluEffect_frame h
  | ld => exact loadEffect_frame h
  | mm => exact storeEffect_frame h
  | sc => exact callEffect_frame h
  | io => exact ioEffect_frame h
  | cn sub => cases h; exact controlEffect_frame sub _
  | os field => cases h; exact systemCallEffect_frame field _

theorem exec_frame {i : Instr} {s t : State} (h : exec i s = .next t) : t.frame = s.frame := by
  obtain h | ⟨c, _, rfl⟩ := exec_next h
  · exact instrEffect_frame h
  · rfl

theorem coreStep_frame {s t : State} (h : coreStep s = .next t) : t.frame = s.frame := by
  obtain ⟨c, _, rfl⟩ | ⟨i, _, h⟩ := coreStep_next h
  · rfl
  · exact exec_frame h

/-! ### The parameters -/

theorem nextSegment_fixed (s : State) (segments : List (List Byte)) : (nextSegment s segments).fixed = s.fixed := by
  cases segments <;> rfl

theorem leaveLoop_fixed (s : State) : (leaveLoop s).fixed = s.fixed := by
  unfold leaveLoop
  split <;> rfl

theorem hostLoad_fixed (segments : List (List Byte)) (s : State) : (hostLoad segments s).fixed = s.fixed := by
  unfold hostLoad
  split
  · exact nextSegment_fixed s segments
  · rfl

theorem hostCancel_fixed (s : State) : (hostCancel s).fixed = s.fixed := by
  unfold hostCancel
  split_ifs
  · exact leaveLoop_fixed s
  · rfl
  · rfl

/-- No host input writes the parameters: a reset reads them (R8, R18, R121). -/
theorem hostCommand_fixed (c : HostCommand) (s : State) : (hostCommand c s).fixed = s.fixed := by
  cases c with
  | reset => rfl
  | load segments => exact hostLoad_fixed segments s
  | cancel => exact hostCancel_fixed s
  | run => simp only [hostCommand, hostRun]; split <;> rfl
  | bindIn | bindOut | unbindIn | unbindOut => simp only [hostCommand]; split <;> rfl

theorem sequencerStep_fixed {s t : State} (h : sequencerStep s = some t) : t.fixed = s.fixed := by
  obtain ⟨_, rest, _, rfl⟩ | ⟨_, _, rfl⟩ := sequencerStep_some h
  · exact nextSegment_fixed _ rest
  · exact leaveLoop_fixed s

theorem machineStep_fixed {s t : State} (h : machineStep s = .next t) : t.fixed = s.fixed := by
  obtain ⟨_, h⟩ | ⟨_, h⟩ := machineStep_next h
  · exact congrArg Prod.fst (coreStep_frame h)
  · exact sequencerStep_fixed h

theorem step_fixed {s t : State} (h : step s = .next t) : t.fixed = s.fixed := by
  obtain ⟨c, _, _, rfl⟩ | rfl | h := step_next h
  · exact hostCommand_fixed c s.popped
  · rfl
  · exact machineStep_fixed (s := s.popped) h

/-- Settles O39: no branch of the step writes the parameters, `hostReset` reads them. -/
theorem noStepWritesParameters : Obligations.NoStepWritesParameters := by
  unfold Obligations.NoStepWritesParameters
  intro s t h
  exact Prod.ext_iff.1 (step_fixed h)

/-! ### The diagnostics trace -/

/-- The state with another diagnostics trace. -/
def State.withTrace (s : State) (d : List DiagEvent) : State := { s with diag := d }

theorem State.fetched_withTrace (s : State) (d : List DiagEvent) (i : Instr) :
    (s.withTrace d).fetched i = (s.fetched i).withTrace d := rfl

theorem State.withTrace_self (s : State) : s.withTrace s.diag = s := rfl

/-- An effect that reads no trace and appends events of its own choice: on every trace the same outcome, the same events
at its end. -/
def AppendsTrace (f : State → Except FaultCause State) : Prop :=
  ∀ s, ∃ e, ∀ d, f (s.withTrace d) = (f s).map (·.withTrace (d ++ e))

theorem AppendsTrace.of_silent {f : State → Except FaultCause State}
    (h : ∀ s d, f (s.withTrace d) = (f s).map (·.withTrace d)) : AppendsTrace f := fun s =>
  ⟨[], fun d => by rw [List.append_nil, h]⟩

theorem jumpEffect_appendsTrace {taken : State → Bool} (ht : ∀ s d, taken (State.withTrace s d) = taken s) (field : Field) :
    AppendsTrace (jumpEffect taken field) := by
  refine .of_silent fun s d => ?_
  have hop : effectiveOperand (s.withTrace d) field = effectiveOperand s field := rfl
  have htaken : taken ((s.withTrace d).setInd false) = taken (s.setInd false) := ht (s.setInd false) d
  rw [jumpEffect_eq, jumpEffect_eq, hop, htaken]
  cases effectiveOperand s field with
  | none => rfl
  | some ea => cases taken (s.setInd false) <;> rfl

theorem aluEffect_appendsTrace (f : Int → Nat → Except FaultCause Int) (field : Field) :
    AppendsTrace (aluEffect f field) := by
  refine .of_silent fun s d => ?_
  have hval : effectiveValue (s.withTrace d) field = effectiveValue s field := rfl
  have hacc : (s.withTrace d).acc = s.acc := rfl
  rw [aluEffect_eq, aluEffect_eq, hval, hacc]
  cases effectiveValue s field with
  | none => rfl
  | some v =>
    show Except.map _ (f (sval s.acc) v) = Except.map _ (Except.map _ (f (sval s.acc) v))
    cases f (sval s.acc) v <;> rfl

theorem loadEffect_appendsTrace (field : Field) : AppendsTrace (loadEffect field) := by
  refine .of_silent fun s d => ?_
  have hval : effectiveValue (s.withTrace d) field = effectiveValue s field := rfl
  rw [loadEffect_eq, loadEffect_eq, hval]
  cases effectiveValue s field <;> rfl

/-- MM appends the warning of the byte it stores (R48). -/
theorem storeEffect_appendsTrace (field : Field) : AppendsTrace (storeEffect field) := by
  intro s
  have hop : ∀ d, effectiveOperand (s.withTrace d) field = effectiveOperand s field := fun _ => rfl
  cases h : effectiveOperand s field with
  | none => exact ⟨[], fun d => by rw [storeEffect_eq, storeEffect_eq, hop, h]; rfl⟩
  | some ea =>
    exact ⟨boundaryCheck s.vmState (busAddr s.bank (zext16 ea)),
      fun d => by rw [storeEffect_eq, storeEffect_eq, hop, h]; rfl⟩

/-- SC appends the warnings of the two bytes it stores (R48). -/
theorem callEffect_appendsTrace (field : Field) : AppendsTrace (callEffect field) := by
  intro s
  refine ⟨boundaryCheck s.vmState (busAddr s.bank (zext16 field)) ++
    boundaryCheck s.vmState (busAddr s.bank (zext16 field + 1)), fun d => ?_⟩
  rw [callEffect_eq, callEffect_eq]
  split <;> rfl

theorem controlEffect_appendsTrace (sub : Field) : AppendsTrace fun s => .ok (controlEffect sub s) := by
  intro s
  unfold controlEffect
  split
  · exact ⟨[], fun d => by rw [List.append_nil]; rfl⟩
  · exact ⟨[], fun d => by rw [List.append_nil]; rfl⟩
  · exact ⟨[], fun d => by rw [List.append_nil]; rfl⟩
  · exact ⟨[.warn (.cnUnimplemented sub)], fun d => rfl⟩

theorem osHaltEffect_withTrace (s : State) (d : List DiagEvent) :
    osHaltEffect (s.withTrace d) = (osHaltEffect s).withTrace d := by
  have hvm : (s.withTrace d).vmState = s.vmState := rfl
  rw [osHaltEffect, osHaltEffect, hvm]
  split <;> rfl

theorem systemCallEffect_appendsTrace (field : Field) : AppendsTrace fun s => .ok (systemCallEffect field s) := by
  intro s
  unfold systemCallEffect
  split
  · exact ⟨[.dump (sval s.acc) s.acc.toNat s.pc], fun d => rfl⟩
  · exact ⟨[], fun d => by simp only [osHaltEffect_withTrace, List.append_nil, Except.map]⟩
  · exact ⟨[.warn (.osUnimplemented field)], fun d => rfl⟩

theorem ioEffect_appendsTrace (op : IoOp) (slot : SlotId) : AppendsTrace (ioEffect op slot) := by
  refine .of_silent fun s d => ?_
  have hslots : (s.withTrace d).slots = s.slots := rfl
  cases op with
  | read =>
    simp only [ioEffect, slotRead_eq, hslots]
    cases (s.slots.get slot).inp <;> rfl
  | write =>
    simp only [ioEffect, slotWrite_eq, hslots]
    cases (s.slots.get slot).out <;> rfl
  | enableInterrupt => rfl
  | disableInterrupt => rfl

theorem instrEffect_appendsTrace (i : Instr) : AppendsTrace (instrEffect i) := by
  intro s
  cases i <;> simp only [instrEffect, State.fetched_withTrace]
  case jp f => exact jumpEffect_appendsTrace (fun _ _ => rfl) f _
  case jz f => exact jumpEffect_appendsTrace (fun _ _ => rfl) f _
  case jn f => exact jumpEffect_appendsTrace (fun _ _ => rfl) f _
  case cn sub => exact controlEffect_appendsTrace sub _
  case add f => exact aluEffect_appendsTrace _ f _
  case sub f => exact aluEffect_appendsTrace _ f _
  case mul f => exact aluEffect_appendsTrace _ f _
  case div f => exact aluEffect_appendsTrace _ f _
  case ld f => exact loadEffect_appendsTrace f _
  case mm f => exact storeEffect_appendsTrace f _
  case sc f => exact callEffect_appendsTrace f _
  case os f => exact systemCallEffect_appendsTrace f _
  case io op d => exact ioEffect_appendsTrace op d.id _

/-- On every trace `f` answers the next state that it answers on the trace of `s`, with the same events appended. -/
def NextOnEveryTrace (f : State → Host.Outcome State Fault Refusal) (s t : State) : Prop :=
  ∃ e, ∀ d, f (s.withTrace d) = .next (t.withTrace (d ++ e))

theorem NextOnEveryTrace.of_silent {f : State → Host.Outcome State Fault Refusal} {s t : State}
    (h : ∀ d, f (s.withTrace d) = .next (t.withTrace d)) : NextOnEveryTrace f s t :=
  ⟨[], fun d => by rw [List.append_nil, h]⟩

/-- Where the next state is the one answered on the trace of `s`, that trace begins the trace after the step. -/
theorem NextOnEveryTrace.diag_grows {f : State → Host.Outcome State Fault Refusal} {s t : State}
    (h : NextOnEveryTrace f s t) (hs : f s = .next t) : s.diag <+: t.diag := by
  obtain ⟨e, he⟩ := h
  have ht : t = t.withTrace (s.diag ++ e) := by
    have := he s.diag
    rw [State.withTrace_self, hs] at this
    injection this
  exact ⟨e, (congrArg State.diag ht).symm⟩

theorem exec_onEveryTrace {i : Instr} {s t : State} (h : exec i s = .next t) : NextOnEveryTrace (exec i) s t := by
  obtain ⟨e, he⟩ := instrEffect_appendsTrace i s
  obtain hok | ⟨c, hfault, rfl⟩ := exec_next h
  · exact ⟨e, fun d => by rw [exec_eq_commit, he, hok]; rfl⟩
  · exact .of_silent fun d => by rw [exec_eq_commit, he, hfault]; rfl

theorem fetchInstr_withTrace (s : State) (d : List DiagEvent) : fetchInstr (s.withTrace d) = fetchInstr s := rfl

theorem coreStep_onEveryTrace {s t : State} (h : coreStep s = .next t) : NextOnEveryTrace coreStep s t := by
  obtain ⟨c, hf, rfl⟩ | ⟨i, hf, h⟩ := coreStep_next h
  · exact .of_silent fun d => by rw [coreStep, fetchInstr_withTrace, hf]; rfl
  · obtain ⟨e, he⟩ := exec_onEveryTrace h
    exact ⟨e, fun d => by rw [coreStep, fetchInstr_withTrace, hf]; exact he d⟩

theorem nextSegment_withTrace (s : State) (segments : List (List Byte)) (d : List DiagEvent) :
    nextSegment (s.withTrace d) segments = (nextSegment s segments).withTrace d := by
  cases segments <;> rfl

theorem segmentDone_withTrace (s : State) (rest : List (List Byte)) (d : List DiagEvent) :
    segmentDone (s.withTrace d) rest = (segmentDone s rest).withTrace d :=
  nextSegment_withTrace (s.setIn .slot1 none) rest d

theorem leaveLoop_withTrace (s : State) (d : List DiagEvent) :
    leaveLoop (s.withTrace d) = (leaveLoop s).withTrace d := by
  have hc : (s.withTrace d).command = s.command := rfl
  rw [leaveLoop, leaveLoop, hc]
  split <;> rfl

theorem commandHalted_withTrace (s : State) (d : List DiagEvent) :
    commandHalted (s.withTrace d) = (commandHalted s).withTrace d := by
  rw [commandHalted, leaveLoop_withTrace]
  rfl

theorem sequencerStep_withTrace (s : State) (d : List DiagEvent) :
    sequencerStep (s.withTrace d) = (sequencerStep s).map (·.withTrace d) := by
  have hv : (s.withTrace d).vmState = s.vmState := rfl
  have hc : (s.withTrace d).command = s.command := rfl
  rw [sequencerStep, sequencerStep, hv, hc]
  split
  · next rest _ _ => exact congrArg some (segmentDone_withTrace s rest d)
  · exact congrArg some (commandHalted_withTrace s d)
  · exact congrArg some (commandHalted_withTrace s d)
  · rfl

theorem hasStep_withTrace (s : State) (d : List DiagEvent) : hasStep (s.withTrace d) = hasStep s := by
  rw [hasStep, sequencerStep_withTrace, Option.isSome_map]
  rfl

theorem machineStep_onEveryTrace {s t : State} (h : machineStep s = .next t) : NextOnEveryTrace machineStep s t := by
  obtain ⟨hv, h⟩ | ⟨hv, h⟩ := machineStep_next h
  · obtain ⟨e, he⟩ := coreStep_onEveryTrace h
    refine ⟨e, fun d => ?_⟩
    have hvd : (s.withTrace d).vmState = s.vmState := rfl
    rw [← he d, machineStep, hvd]
    obtain hv | hv := hv <;> rw [hv]
  · refine .of_silent fun d => ?_
    have hvd : (s.withTrace d).vmState = s.vmState := rfl
    rw [machineStep, hvd, sequencerStep_withTrace, h]
    obtain hv | hv := hv <;> rw [hv] <;> rfl

/-- A host input but a reset neither reads nor writes the trace (R12). -/
theorem hostCommand_withTrace {c : HostCommand} (hc : c ≠ .reset) (s : State) (d : List DiagEvent) :
    hostCommand c (s.withTrace d) = (hostCommand c s).withTrace d := by
  have haccepts : acceptsCommand (s.withTrace d) = acceptsCommand s := rfl
  have hbind : ∀ slot, mayBind (s.withTrace d) slot = mayBind s slot := fun _ => rfl
  have hv : (s.withTrace d).vmState = s.vmState := rfl
  have hh : (s.withTrace d).haltCause = s.haltCause := rfl
  have hcommand : (s.withTrace d).command = s.command := rfl
  cases c with
  | reset => exact absurd rfl hc
  | load segments =>
    simp only [hostCommand, hostLoad, haccepts]
    split
    · exact nextSegment_withTrace s segments d
    · rfl
  | run =>
    simp only [hostCommand, hostRun, haccepts]
    split <;> rfl
  | cancel =>
    simp only [hostCommand, hostCancel, hv, hh, hcommand, leaveLoop_withTrace]
    split_ifs <;> rfl
  | bindIn | bindOut | unbindIn | unbindOut =>
    simp only [hostCommand, hbind]
    split <;> rfl

/-- A step but a reset neither reads the trace nor takes anything from it. -/
theorem step_onEveryTrace {s t : State} (h : step s = .next t) (hr : ∀ rest, s.hostIn ≠ some .reset :: rest) :
    NextOnEveryTrace step s t := by
  have hpop : ∀ d, (s.withTrace d).popped = s.popped.withTrace d := fun _ => rfl
  by_cases hin : ∃ c rest, s.hostIn = some c :: rest
  · obtain ⟨c, rest, hc⟩ := hin
    have hne : c ≠ .reset := by
      rintro rfl
      exact hr rest hc
    rw [step_of_hostInput hc] at h
    cases h
    refine .of_silent fun d => ?_
    rw [step_of_hostInput (s := s.withTrace d) hc, hpop, hostCommand_withTrace hne]
  · have hno : ∀ c rest, s.hostIn ≠ some c :: rest := by simpa using hin
    have hstep : ∀ d, step (s.withTrace d) =
        if s.hostIn ≠ [] ∧ hasStep s.popped = false then .next (s.popped.withTrace d)
        else machineStep (s.popped.withTrace d) := fun d => by
      rw [step_of_noHostInput (s := s.withTrace d) hno, hpop, hasStep_withTrace]
      rfl
    rw [step_of_noHostInput hno] at h
    split at h
    · next hb =>
      cases h
      exact .of_silent fun d => by rw [hstep, if_pos hb]
    · next hb =>
      obtain ⟨e, he⟩ := machineStep_onEveryTrace h
      exact ⟨e, fun d => by rw [hstep, if_neg hb, he]⟩

/-- Settles O35: a step but a reset appends its events to whatever trace it finds. -/
theorem diagnosticsOnlyGrow : Obligations.DiagnosticsOnlyGrow := by
  unfold Obligations.DiagnosticsOnlyGrow
  intro s t h hr
  exact (step_onEveryTrace h hr).diag_grows h

/-- Settles O41: a reset empties the trace whatever it holds, and any other step only appends to it. -/
theorem diagnosticsAreNotObserved : Obligations.DiagnosticsAreNotObserved := by
  unfold Obligations.DiagnosticsAreNotObserved
  intro s t trace h
  by_cases hr : ∃ rest, s.hostIn = some .reset :: rest
  · obtain ⟨rest, hreset⟩ := hr
    rw [step_of_hostInput hreset] at h
    cases h
    exact ⟨_, step_of_hostInput (s := s.withTrace trace) hreset, rfl⟩
  · obtain ⟨e, he⟩ := step_onEveryTrace h (by simpa using hr)
    exact ⟨_, he trace, rfl⟩

/-! ### Bindings -/

theorem mayBind_eq_true {s : State} {d : SlotId} (hv : s.vmState = .idle) (hd : d ≠ .slot0) : mayBind s d = true := by
  simp [mayBind, hv, hd]

theorem mayBind_eq_false {s : State} {d : SlotId} (h : s.vmState ≠ .idle ∨ d = .slot0) : mayBind s d = false := by
  obtain h | h := h <;> simp [mayBind, h]

/-- Settles O53: a binding or unbinding is one host input, and `mayBind` decides whether it takes effect. -/
theorem bindingRule : Obligations.BindingRule := by
  unfold Obligations.BindingRule
  intro s d bytes rest
  have hstep : ∀ c, s.hostIn = some c :: rest → step s = .next (hostCommand c { s with hostIn := rest }) := fun c h => by
    rw [step_of_hostInput h, State.popped_of_cons h]
  have hpop : mayBind { s with hostIn := rest } d = mayBind s d := rfl
  constructor
  · intro hv hd
    have hmay : mayBind s d = true := mayBind_eq_true hv hd
    refine ⟨fun h => ?_, fun h => ?_, fun h => ?_, fun h => ?_⟩ <;>
    · rw [hstep _ h, hostCommand, hpop, if_pos hmay]
      rfl
  · intro hno hin
    have hmay : ¬ mayBind s d = true := by rw [mayBind_eq_false hno]; exact Bool.false_ne_true
    obtain h | h | h | h := hin <;> rw [hstep _ h, hostCommand, hpop, if_neg hmay]

/-! ### LD -/

theorem exec_ld_of_value {s : State} {field : Field} {v : Nat} (h : effectiveValue s field = some v) :
    exec (.ld field) s = .next (((s.fetched (.ld field)).setInd false).setAcc (bits8 v)) := by
  rw [exec_eq_commit, instrEffect, loadEffect_eq, effectiveValue_fetched, h]
  rfl

theorem bits8_toNat (b : Byte) : bits8 b.toNat = b := by
  rw [bits8, BitVec.ofInt_natCast, BitVec.ofNat_toNat, BitVec.setWidth_eq]

/-- A 12-bit operand value modulo 256 is the low byte of the pointer it came from (R81, R93). -/
theorem bits8_low12 (w : Word) : bits8 (low12 w).toNat = lowByte w := by
  rw [bits8, BitVec.ofInt_natCast, BitVec.ofNat_toNat]
  ext k hk
  simp [low12, lowByte, show k < 12 by omega]

theorem effectiveOperand_direct {s : State} (hind : s.ind = false) (field : Field) :
    effectiveOperand s field = some field := by
  rw [effectiveOperand, hind, if_neg Bool.false_ne_true]

theorem effectiveOperand_indirect {s : State} (hind : s.ind = true) {field : Field} (hf : field ≠ 0xFFF) :
    effectiveOperand s field = some (low12 (wordOf (s.byteAt field.toNat) (s.byteAt (field.toNat + 1)))) := by
  rw [effectiveOperand, if_pos hind, if_neg hf]

/-- Settles O23: the pointer's second byte is the low byte of the 12-bit operand that LD truncates to 8 bits. -/
theorem loadReadsMemory : Obligations.LoadReadsMemory := by
  unfold Obligations.LoadReadsMemory
  refine fun s field => ⟨fun hsrc hind hf => ?_, fun hsrc hind => ?_⟩
  · have hv : effectiveValue s field =
        some (low12 (wordOf (s.byteAt field.toNat) (s.byteAt (field.toNat + 1)))).toNat := by
      rw [effectiveValue, effectiveOperand_indirect hind hf, Option.map_some, State.valueAt, hsrc]
    exact ⟨_, exec_ld_of_value hv, by rw [State.setAcc_acc, bits8_low12, lowByte_wordOf]⟩
  · have hv : effectiveValue s field = some (s.byteAt field.toNat).toNat := by
      rw [effectiveValue, effectiveOperand_direct hind, Option.map_some, State.valueAt, hsrc]
    exact ⟨_, exec_ld_of_value hv, by rw [State.setAcc_acc, bits8_toNat]⟩

end Sys2Proof.Machine

namespace Sys2Proof.Machine

/-! ### Every way an instruction completes -/

/-- The instructions whose operand value is computed into `ACC` (R82). -/
abbrev Computes (i : Instr) : Prop := ∃ f, i = .add f ∨ i = .sub f ∨ i = .mul f ∨ i = .div f ∨ i = .ld f

/-- The state `t` in which the instruction `i` may complete, `u` being the state its fetch left (R79). A value that no
statement about registers, memory or slots needs is left free. -/
inductive Completes (u : State) : Instr → State → Prop
  /-- JP, JZ and JN write `PC` or leave it (R84 to R86). -/
  | jump {i : Instr} (pc : Word) (hi : resolves i = true) : Completes u i ((u.setInd false).setPc pc)
  /-- `+ - * / LD` write `ACC` (R88 to R93). -/
  | compute {i : Instr} (v : Byte) (hi : Computes i) : Completes u i ((u.setInd false).setAcc v)
  /-- MM (R94). -/
  | store (f ea : Field) :
      Completes u (.mm f)
        (((u.setInd false).setMem (u.mem.write (busAddr u.bank (zext16 ea)).toNat u.acc)).report
          (boundaryCheck u.vmState (busAddr u.bank (zext16 ea))))
  /-- SC (R95). -/
  | call (f : Field) :
      Completes u (.sc f)
        (((u.setMem ((u.mem.write (busAddr u.bank (zext16 f)).toNat (highByte u.pc)).write
            (busAddr u.bank (zext16 f + 1)).toNat (lowByte u.pc))).report
          (boundaryCheck u.vmState (busAddr u.bank (zext16 f)) ++
            boundaryCheck u.vmState (busAddr u.bank (zext16 f + 1)))).setPc (zext16 f + 2))
  /-- CN 0 (R87). -/
  | cnHalt : Completes u (.cn 0) (u.halt .cnHalt)
  /-- CN 2 (R87). -/
  | indirect : Completes u (.cn 2) (u.setInd true)
  /-- A dump or a warning of OS or CN (R87, R97). -/
  | report {i : Instr} (events : List DiagEvent) (hi : resolves i = false) (hcn : i ≠ .cn 2) :
      Completes u i (u.report events)
  /-- OS 0x00F in `loading` (R97). -/
  | endSegment (hv : u.vmState = .loading) : Completes u (.os 0x00F) { u with vmState := .idle }
  /-- OS 0x00F elsewhere (R97). -/
  | osHalt (hv : u.vmState ≠ .loading) : Completes u (.os 0x00F) (u.halt .osHalt)
  /-- The IO read (R98). -/
  | read {d : SlotOperand} {st : InStream} (v : Byte) (hst : (u.slots.get d.id).inp = some st) :
      Completes u (.io .read d) ((u.setIn d.id (some st.advanced)).setAcc v)
  /-- The IO write (R98). -/
  | write {d : SlotOperand} (sink : List Byte) : Completes u (.io .write d) (u.setOut d.id (some sink))
  /-- CN 1 (R106) and the interrupt stubs of IO (R98). -/
  | nothing {i : Instr} (hi : resolves i = false) (hcn : i ≠ .cn 2) : Completes u i u

theorem Completes.of_jumpEffect {taken : State → Bool} {f : Field} {i : Instr} {u t : State}
    (hi : resolves i = true) (h : jumpEffect taken f u = .ok t) : Completes u i t := by
  rw [jumpEffect_eq] at h
  split at h <;> cases h
  split
  · exact .jump _ hi
  · exact .jump u.pc hi

theorem Completes.of_aluEffect {g : Int → Nat → Except FaultCause Int} {f : Field} {i : Instr} {u t : State}
    (hi : Computes i) (h : aluEffect g f u = .ok t) : Completes u i t := by
  rw [aluEffect_eq] at h
  split at h
  · next v _ =>
    cases hr : g (sval u.acc) v <;> rw [hr] at h <;> cases h
    exact .compute _ hi
  · cases h

theorem Completes.of_loadEffect {f : Field} {u t : State} (h : loadEffect f u = .ok t) : Completes u (.ld f) t := by
  rw [loadEffect_eq] at h
  split at h <;> cases h
  exact .compute _ ⟨f, by simp⟩

theorem Completes.of_storeEffect {f : Field} {u t : State} (h : storeEffect f u = .ok t) : Completes u (.mm f) t := by
  rw [storeEffect_eq] at h
  split at h <;> cases h
  exact .store f _

theorem Completes.of_callEffect {f : Field} {u t : State} (h : callEffect f u = .ok t) : Completes u (.sc f) t := by
  rw [callEffect_eq] at h
  split at h <;> cases h
  exact .call f

theorem Completes.controlEffect (sub : Field) (u : State) : Completes u (.cn sub) (controlEffect sub u) := by
  have hne : sub.toNat ≠ 2 → Instr.cn sub ≠ .cn 2 := by
    rintro h ⟨⟩
    exact h rfl
  unfold Machine.controlEffect
  split
  case h_1 h =>
    obtain rfl : sub = 0 := BitVec.eq_of_toNat_eq h
    exact .cnHalt
  case h_2 h => exact .nothing rfl (hne (by omega))
  case h_3 h =>
    obtain rfl : sub = 2 := BitVec.eq_of_toNat_eq h
    exact .indirect
  case h_4 h => exact .report _ rfl (hne h)

theorem Completes.systemCallEffect (f : Field) (u : State) : Completes u (.os f) (systemCallEffect f u) := by
  unfold Machine.systemCallEffect osHaltEffect
  split
  case h_1 => exact .report _ rfl nofun
  case h_2 h =>
    obtain rfl : f = 0x00F := BitVec.eq_of_toNat_eq h
    split
    · next hv => exact .endSegment hv
    · next hv => exact .osHalt hv
  case h_3 => exact .report _ rfl nofun

theorem Completes.of_ioEffect {op : IoOp} {d : SlotOperand} {u t : State} (h : ioEffect op d.id u = .ok t) :
    Completes u (.io op d) t := by
  cases op with
  | read =>
    rw [ioEffect, slotRead_eq] at h
    cases hi : (u.slots.get d.id).inp <;> rw [hi] at h <;> cases h
    exact .read _ hi
  | write =>
    rw [ioEffect, slotWrite_eq] at h
    cases ho : (u.slots.get d.id).out <;> rw [ho] at h <;> cases h
    exact .write _
  | enableInterrupt | disableInterrupt => cases h; exact .nothing rfl nofun

/-- The inversion lemma of the instructions: an effect without a fault is one of the completions. -/
theorem instrEffect_completes {i : Instr} {s t : State} (h : instrEffect i s = .ok t) :
    Completes (s.fetched i) i t := by
  cases i with
  | jp | jz | jn => exact .of_jumpEffect rfl h
  | add f | sub f | mul f | div f =>
    rw [instrEffect] at h
    exact .of_aluEffect ⟨f, by simp⟩ h
  | ld => exact .of_loadEffect h
  | mm => exact .of_storeEffect h
  | sc => exact .of_callEffect h
  | io => exact .of_ioEffect h
  | cn sub => cases h; exact .controlEffect sub _
  | os f => cases h; exact .systemCallEffect f _

/-- An instruction completes or takes a fault. -/
theorem exec_completes {i : Instr} {s t : State} (h : exec i s = .next t) :
    Completes (s.fetched i) i t ∨ ∃ c, t = takeFault c s := by
  obtain h | ⟨c, _, rfl⟩ := exec_next h
  · exact .inl (instrEffect_completes h)
  · exact .inr ⟨c, rfl⟩

/-! ### What a completion leaves in the registers -/

theorem resolves_of_computes {i : Instr} (hi : Computes i) : resolves i = true := by
  obtain ⟨f, rfl | rfl | rfl | rfl | rfl⟩ := hi <;> rfl

/-- The flag of indirect mode after an instruction that completes, CN 2 apart (R23, R80). -/
theorem Completes.ind {u t : State} {i : Instr} (h : Completes u i t) (hcn : i ≠ .cn 2) :
    t.ind = if resolves i then false else u.ind := by
  cases h with
  | indirect => exact absurd rfl hcn
  | jump _ hi => rw [if_pos hi]; rfl
  | compute _ hi => rw [if_pos (resolves_of_computes hi)]; rfl
  | store => rfl
  | report _ hi | nothing hi => rw [hi]; rfl
  | call | cnHalt | endSegment | osHalt | read | write => rfl

theorem Completes.ind_of_cn2 {u t : State} (h : Completes u (.cn 2) t) : t.ind = true := by
  cases h with
  | indirect => rfl
  | jump _ hi => cases hi
  | compute _ hi => cases resolves_of_computes hi
  | report _ _ hcn | nothing _ hcn => exact absurd rfl hcn

/-- Settles O30: a fault is told by its halt cause, so the instruction completed. -/
theorem indirectFlagRule : Obligations.IndirectFlagRule := by
  unfold Obligations.IndirectFlagRule
  intro i s t h _ hnofault
  obtain h | ⟨c, rfl⟩ := exec_completes h
  · refine ⟨fun hr => ?_, fun hi => ?_, fun hr hcn => ?_⟩
    · have hcn : i ≠ .cn 2 := by
        rintro rfl
        cases hr
      rw [h.ind hcn, if_pos hr]
    · subst hi
      exact h.ind_of_cn2
    · rw [h.ind hcn, hr]
      rfl
  · exact absurd rfl hnofault

/-- The writers of `ACC` (R19). -/
theorem Completes.acc {u t : State} {i : Instr} (h : Completes u i t) (hacc : t.acc ≠ u.acc) :
    Computes i ∨ ∃ d, i = .io .read d := by
  cases h with
  | compute _ hi => exact .inl hi
  | read => exact .inr ⟨_, rfl⟩
  | _ => exact absurd rfl hacc

/-- Settles O32: of the completions only a computation and a read set `ACC`, and a fault leaves it. -/
theorem onlyNamedInstructionsWriteAcc : Obligations.OnlyNamedInstructionsWriteAcc := by
  unfold Obligations.OnlyNamedInstructionsWriteAcc
  intro i s t h hacc
  obtain h | ⟨c, rfl⟩ := exec_completes h
  · exact h.acc hacc
  · exact absurd rfl hacc

/-- Settles O34: the frame that no instruction writes. -/
theorem noInstructionWritesBank : Obligations.NoInstructionWritesBank := by
  unfold Obligations.NoInstructionWritesBank
  intro i s t h
  have hframe := exec_frame h
  simp only [State.frame, State.fixed, Prod.mk.injEq] at hframe
  obtain ⟨⟨himage, hparams⟩, hbank, hcommand, hhost⟩ := hframe
  exact ⟨hbank, hparams, himage, hcommand, hhost⟩

/-! ### Every way a step changes the block -/

/-- The core executes, in `loading` or `running`. -/
abbrev CoreActive (s : State) : Prop := s.vmState = .loading ∨ s.vmState = .running

/-- A step to `t` that is no reset, `s` being the state whose due host input has been taken off the queue. -/
inductive Moves (s : State) : State → Prop
  /-- A boundary at which nothing happens, or a host input that is turned away (R122). -/
  | stay : Moves s s
  /-- A fault of the core (R83). -/
  | fault (c : FaultCause) (hv : CoreActive s) : Moves s (takeFault c s)
  | complete {i : Instr} {t : State} (hv : CoreActive s) (h : Completes (s.fetched i) i t) : Moves s t
  /-- The host binds or unbinds an input stream (R11, R30). -/
  | bindIn {d : SlotId} (x : Option (List Byte)) (hv : s.vmState = .idle) (hd : d ≠ .slot0) :
      Moves s (s.setIn d (x.map fun bytes => ⟨bytes, 0⟩))
  /-- The host binds or unbinds an output sink (R11, R30). -/
  | bindOut {d : SlotId} (x : Option (List Byte)) (hv : s.vmState = .idle) (hd : d ≠ .slot0) : Moves s (s.setOut d x)
  /-- The first or the next segment of a `load` starts (R123). -/
  | startSegment (seg : List Byte) (rest : List (List Byte)) (hv : s.vmState = .idle) :
      Moves s (startSegment s seg rest)
  /-- A `load` without a segment left is done (R123). -/
  | endLoad (x : Option InStream) (hv : s.vmState = .idle) (hx : x = s.slots.slot1.inp ∨ x = none) :
      Moves s ((s.setIn .slot1 x).setCommand (.ended .completed))
  /-- `run` (R124). -/
  | run (hv : s.vmState = .idle) : Moves s { s with pc := entryVector s.mem, vmState := .running, command := .run }
  /-- `cancel` outside `halted` (R114). -/
  | cancel (hv : s.vmState ≠ .halted) : Moves s (s.halt .cancelled)
  /-- A command ends, or is left pending, after the core has halted (R113, R114). -/
  | endCommand (c : Command) (hv : s.vmState = .halted) : Moves s ((leaveLoop s).setCommand c)

theorem acceptsCommand_idle {s : State} (h : acceptsCommand s = true) : s.vmState = .idle := by
  simp only [acceptsCommand, Bool.and_eq_true, beq_iff_eq] at h
  exact h.1

theorem mayBind_eq_true_iff {s : State} {d : SlotId} : mayBind s d = true ↔ s.vmState = .idle ∧ d ≠ .slot0 := by
  simp [mayBind]

theorem nextSegment_moves {s : State} (segments : List (List Byte)) (hv : s.vmState = .idle) :
    Moves s (nextSegment s segments) := by
  cases segments with
  | nil => exact .endLoad _ hv (.inl rfl)
  | cons seg rest => exact .startSegment seg rest hv

/-- The stream of the segment that has ended is unbound first, and a next segment binds slot 1 again. -/
theorem segmentDone_moves {s : State} (segments : List (List Byte)) (hv : s.vmState = .idle) :
    Moves s (segmentDone s segments) := by
  cases segments with
  | nil => exact .endLoad _ hv (.inr rfl)
  | cons seg rest => exact .startSegment seg rest hv

theorem hostCancel_moves (s : State) : Moves s (hostCancel s) := by
  unfold hostCancel
  split_ifs with hv
  · exact .endCommand _ hv
  · exact .stay
  · exact .cancel hv

theorem hostCommand_moves {c : HostCommand} (hc : c ≠ .reset) (s : State) : Moves s (hostCommand c s) := by
  cases c with
  | reset => exact absurd rfl hc
  | cancel => exact hostCancel_moves s
  | load segments =>
    simp only [hostCommand, hostLoad]
    split
    · next h => exact nextSegment_moves segments (acceptsCommand_idle h)
    · exact .stay
  | run =>
    simp only [hostCommand, hostRun]
    split
    · next h => exact .run (acceptsCommand_idle h)
    · exact .stay
  | bindIn d bytes =>
    simp only [hostCommand, mayBind_eq_true_iff]
    split
    · next h => exact .bindIn (some bytes) h.1 h.2
    · exact .stay
  | unbindIn d =>
    simp only [hostCommand, mayBind_eq_true_iff]
    split
    · next h => exact .bindIn none h.1 h.2
    · exact .stay
  | bindOut | unbindOut =>
    simp only [hostCommand, mayBind_eq_true_iff]
    split
    · next h => exact .bindOut _ h.1 h.2
    · exact .stay

theorem sequencerStep_moves {s t : State} (h : sequencerStep s = some t) : Moves s t := by
  obtain ⟨hv, rest, _, rfl⟩ | ⟨hv, _, rfl⟩ := sequencerStep_some h
  · exact segmentDone_moves rest hv
  · exact .endCommand _ hv

theorem coreStep_moves {s t : State} (hv : CoreActive s) (h : coreStep s = .next t) : Moves s t := by
  obtain ⟨c, _, rfl⟩ | ⟨i, _, h⟩ := coreStep_next h
  · exact .fault c hv
  · obtain h | ⟨c, rfl⟩ := exec_completes h
    · exact .complete hv h
    · exact .fault c hv

/-- The inversion lemma of the step: a reset from the host's queue, or one of the moves. -/
theorem step_moves {s t : State} (h : step s = .next t) :
    (∃ rest, s.hostIn = some .reset :: rest ∧ t = hostReset s.popped) ∨ Moves s.popped t := by
  obtain ⟨c, rest, hin, rfl⟩ | rfl | h := step_next h
  · by_cases hc : c = .reset
    · subst hc
      exact .inl ⟨rest, hin, rfl⟩
    · exact .inr (hostCommand_moves hc _)
  · exact .inr .stay
  · obtain ⟨hv, h⟩ | ⟨_, h⟩ := machineStep_next h
    · exact .inr (coreStep_moves hv h)
    · exact .inr (sequencerStep_moves h)

theorem step_moves_of_no_reset {s t : State} (h : step s = .next t) (hr : ∀ rest, s.hostIn ≠ some .reset :: rest) :
    Moves s.popped t := by
  obtain ⟨rest, hin, _⟩ | h := step_moves h
  · exact absurd hin (hr rest)
  · exact h

/-! ### `VMSTATE` -/

theorem vmTransition_refl (v : VmState) : vmTransition v v = true := by cases v <;> rfl

theorem vmTransition_halted (v : VmState) : vmTransition v .halted = true := by cases v <;> rfl

@[simp] theorem leaveLoop_vmState (s : State) : (leaveLoop s).vmState = s.vmState := by
  unfold leaveLoop
  split <;> rfl

/-- A completion halts the core, ends a segment in `loading`, or leaves `VMSTATE` (R31, R97). -/
theorem Completes.vmTransition {u t : State} {i : Instr} (h : Completes u i t) :
    vmTransition u.vmState t.vmState = true := by
  cases h with
  | cnHalt | osHalt => exact vmTransition_halted _
  | endSegment hv => rw [hv]; rfl
  | _ => exact vmTransition_refl _

theorem Moves.vmTransition {s t : State} (h : Moves s t) : vmTransition s.vmState t.vmState = true := by
  cases h with
  | stay | bindIn | bindOut | endLoad => exact vmTransition_refl _
  | fault | cancel => exact vmTransition_halted _
  | complete _ h => exact h.vmTransition
  | startSegment _ _ hv | run hv => rw [hv]; rfl
  | endCommand => simp [vmTransition_refl]

/-- Settles O36: each move goes along a row of the table. -/
theorem vmStateFollowsTheTable : Obligations.VmStateFollowsTheTable := by
  unfold Obligations.VmStateFollowsTheTable
  intro s t h hr
  exact (step_moves_of_no_reset h hr).vmTransition

/-- Settles O8: the sequencer's own steps need a `load` in `idle`, or a `load` or `run` in `halted`. -/
theorem coreStepsExactlyInLoadingAndRunning : Obligations.CoreStepsExactlyInLoadingAndRunning := by
  unfold Obligations.CoreStepsExactlyInLoadingAndRunning
  intro s hin hidle hhalted
  constructor
  · rintro ⟨t, h⟩
    rw [step_of_noHostInput (by simp [hin]), if_neg (by simp [hin]), State.popped_of_nil hin] at h
    obtain ⟨hv, _⟩ | ⟨_, h⟩ := machineStep_next h
    · exact hv
    · obtain ⟨hv, rest, hc, _⟩ | ⟨hv, hc | ⟨rest, hc⟩, _⟩ := sequencerStep_some h
      · exact absurd hc (hidle hv rest)
      · exact absurd hc (hhalted hv).1
      · exact absurd hc ((hhalted hv).2 rest)
  · intro hv
    rw [step_of_executing ⟨hin, hv⟩]
    exact coreStep_answers_next s

/-! ### `halted` -/

/-- In `halted` a move changes nothing, or carries the command on (R31, R101, R114). -/
theorem Moves.of_halted {s t : State} (h : Moves s t) (hv : s.vmState = .halted) :
    t = s ∨ ∃ c, t = (leaveLoop s).setCommand c := by
  have hcore : ¬ CoreActive s := by simp [CoreActive, hv]
  cases h with
  | stay => exact .inl rfl
  | endCommand c => exact .inr ⟨c, rfl⟩
  | fault _ h | complete h => exact absurd h hcore
  | cancel h => exact absurd hv h
  | bindIn _ h | bindOut _ h | startSegment _ _ h | endLoad _ h | run h => cases hv.symm.trans h

/-- What the end of a command does to slot 1's input: only a `load` unbinds it (R123, R124). -/
theorem leaveLoop_cases (s : State) :
    leaveLoop s = s ∨ (∃ left, s.command = .load left) ∧ leaveLoop s = s.setIn .slot1 none := by
  unfold leaveLoop
  split
  · next left hc => exact .inr ⟨⟨left, hc⟩, rfl⟩
  · exact .inl rfl

/-- Settles O37: the one move left in `halted` is the end of a command, which may unbind slot 1's input. -/
theorem haltedIsTerminal : Obligations.HaltedIsTerminal := by
  unfold Obligations.HaltedIsTerminal
  intro s t hv h hr
  obtain rfl | ⟨c, rfl⟩ := (step_moves_of_no_reset h hr).of_halted hv
  · simp [State.popped, hv]
  · obtain hl | ⟨hload, hl⟩ := leaveLoop_cases s.popped
    · rw [hl]
      simp [State.popped, hv]
    · rw [hl]
      exact ⟨hv, rfl, rfl, rfl, rfl, rfl, rfl, rfl, rfl, rfl, rfl, rfl, rfl, rfl, .inr ⟨hload, rfl⟩, rfl, rfl⟩

/-! ### Memory -/

theorem lookupCell_eq_none_of_lt {lo a : Nat} {l : List Host.Cell} (hw : cellsWf lo l = true) (ha : a < lo) :
    lookupCell l a = none := by
  induction l generalizing lo with
  | nil => rfl
  | cons c rest ih =>
    obtain ⟨k, v⟩ := c
    obtain ⟨hk, _, _, hrest⟩ := (cellsWf_cons lo k v rest).1 hw
    rw [lookupCell, if_neg (by omega), ih hrest (by omega)]

theorem Memory.read_head (a : Nat) (v : Byte) (rest : List Host.Cell) : (Memory.mk ((a, v) :: rest)).read a = v := by
  simp [Memory.read, lookupCell]

theorem Memory.read_of_lt {lo a : Nat} {l : List Host.Cell} (hw : cellsWf lo l = true) (ha : a < lo) :
    (Memory.mk l).read a = Memory.unlisted := by
  simp [Memory.read, lookupCell_eq_none_of_lt hw ha]

theorem Memory.read_tail {a b : Nat} (v : Byte) (rest : List Host.Cell) (h : a ≠ b) :
    (Memory.mk ((a, v) :: rest)).read b = (Memory.mk rest).read b := by
  simp [Memory.read, lookupCell, h]

/-- At its first address a canonical list reads differently from a list of higher addresses only. -/
theorem Memory.read_head_ne {lo a : Nat} {v : Byte} {rest l : List Host.Cell}
    (hw : cellsWf lo ((a, v) :: rest) = true) (hl : cellsWf (a + 1) l = true) :
    a < Config.memorySize ∧ (Memory.mk ((a, v) :: rest)).read a ≠ (Memory.mk l).read a := by
  obtain ⟨_, ha, hv, _⟩ := (cellsWf_cons lo a v rest).1 hw
  rw [Memory.read_head, Memory.read_of_lt hl (Nat.lt_succ_self a)]
  exact ⟨ha, hv⟩

/-- Canonical lists of cells that read the same are the same list. -/
theorem cells_eq_of_read_eq {lo lo' : Nat} {l m : List Host.Cell} (hl : cellsWf lo l = true)
    (hm : cellsWf lo' m = true) (h : ∀ a, a < Config.memorySize → (Memory.mk l).read a = (Memory.mk m).read a) :
    l = m := by
  induction l generalizing lo lo' m with
  | nil =>
    cases m with
    | nil => rfl
    | cons d m =>
      obtain ⟨ha, hne⟩ := Memory.read_head_ne (l := []) hm rfl
      exact absurd (h d.1 ha).symm hne
  | cons c l ih =>
    obtain ⟨a, v⟩ := c
    obtain ⟨_, ha, hv, hl'⟩ := (cellsWf_cons lo a v l).1 hl
    cases m with
    | nil => exact absurd (h a ha) (Memory.read_head_ne (l := []) hl rfl).2
    | cons d m =>
      obtain ⟨b, w⟩ := d
      obtain ⟨_, hb, hw, hm'⟩ := (cellsWf_cons lo' b w m).1 hm
      rcases Nat.lt_trichotomy a b with hlt | rfl | hlt
      · have hm1 : cellsWf (a + 1) ((b, w) :: m) = true := (cellsWf_cons ..).2 ⟨hlt, hb, hw, hm'⟩
        exact absurd (h a ha) (Memory.read_head_ne hl hm1).2
      · have hvw : v = w := by simpa only [Memory.read_head] using h a ha
        have hrest : ∀ x, x < Config.memorySize → (Memory.mk l).read x = (Memory.mk m).read x := fun x hx => by
          by_cases hxa : a = x
          · subst hxa
            rw [Memory.read_of_lt hl' (Nat.lt_succ_self a), Memory.read_of_lt hm' (Nat.lt_succ_self a)]
          · simpa only [Memory.read_tail _ _ hxa] using h x hx
        rw [hvw, ih hl' hm' hrest]
      · have hl1 : cellsWf (b + 1) ((a, v) :: l) = true := (cellsWf_cons ..).2 ⟨hlt, ha, hv, hl'⟩
        exact absurd (h b hb).symm (Memory.read_head_ne hm hl1).2

/-- Settles O43: the canonical list of cells is determined by the reads. -/
theorem memoriesWithEqualReadsAreEqual : Obligations.MemoriesWithEqualReadsAreEqual := by
  unfold Obligations.MemoriesWithEqualReadsAreEqual
  rintro ⟨l⟩ ⟨m⟩ hl hm h
  exact congrArg Memory.mk (cells_eq_of_read_eq hl hm h)

/-- An address of bank 0 is below the upper banks (R37). -/
theorem busAddr_zero_lt (off : Word) : (busAddr 0 off).toNat < Config.bankSize := by
  have hbus : (busAddr 0 off).toNat = (low12 off).toNat := by
    rw [busAddr, BitVec.toNat_append]
    simp
  rw [hbus]
  exact (low12 off).isLt

/-- A write through `BANK` 0 leaves banks 1 to 15 (R22, R27). -/
theorem Memory.read_write_upper (m : Memory) {b : Nibble} (hb : b = 0) (off : Word) (v : Byte) {a : Nat}
    (ha : Config.bankSize ≤ a) : (m.write (busAddr b off).toNat v).read a = m.read a := by
  subst hb
  exact m.read_write_other _ _ _ (by have := busAddr_zero_lt off; omega)

theorem Completes.read_upper {u t : State} {i : Instr} (h : Completes u i t) (hb : u.bank = 0) {a : Nat}
    (ha : Config.bankSize ≤ a) : t.mem.read a = u.mem.read a := by
  cases h with
  | store f ea => exact u.mem.read_write_upper hb _ _ ha
  | call f =>
    exact ((u.mem.write _ _).read_write_upper hb _ _ ha).trans (u.mem.read_write_upper hb _ _ ha)
  | _ => rfl

theorem Completes.bank {u t : State} {i : Instr} (h : Completes u i t) : t.bank = u.bank := by cases h <;> rfl

@[simp] theorem leaveLoop_mem (s : State) : (leaveLoop s).mem = s.mem := by
  unfold leaveLoop
  split <;> rfl

@[simp] theorem leaveLoop_bank (s : State) : (leaveLoop s).bank = s.bank := by
  unfold leaveLoop
  split <;> rfl

/-- `BANK` stays 0 along a move: only the start of a segment writes it, and writes 0 (R22, R123). -/
theorem Moves.bank {s t : State} (h : Moves s t) (hb : s.bank = 0) : t.bank = 0 := by
  cases h with
  | startSegment => rfl
  | complete _ h => exact h.bank.trans hb
  | endCommand => exact (leaveLoop_bank s).trans hb
  | _ => exact hb

/-- Only an instruction that completes writes memory, and it writes bank 0 (R22, R38). -/
theorem Moves.read_upper {s t : State} (h : Moves s t) (hb : s.bank = 0) {a : Nat} (ha : Config.bankSize ≤ a) :
    t.mem.read a = s.mem.read a := by
  cases h with
  | complete _ h => exact h.read_upper hb ha
  | endCommand => exact congrArg (Memory.read · a) (leaveLoop_mem s)
  | _ => rfl

/-- Settles O44: the bank and the upper cells along each move. -/
theorem upperBanksNeverChange : Obligations.UpperBanksNeverChange := by
  unfold Obligations.UpperBanksNeverChange
  intro s t hb h hr
  have hmoves := step_moves_of_no_reset h hr
  exact ⟨hmoves.bank hb, fun a ha => hmoves.read_upper hb ha⟩

/-! ### Reset and `run` -/

/-- Settles O45: a bank holds the whole of an image of at most 4096 bytes. -/
theorem resetState : Obligations.ResetState := by
  unfold Obligations.ResetState
  refine ⟨⟨0, rfl⟩, fun p image n hlen => ?_⟩
  have hmem : ∀ a, (State.resetFrom p image n).mem.read a = image.getD a 0x00 := fun a => by
    have htake : image.take Config.bankSize = image := List.take_of_length_le hlen
    rw [State.resetFrom, Memory.read_ofImage, htake]
  exact ⟨rfl, rfl, rfl, rfl, rfl, hmem, ⟨_, rfl⟩, rfl, rfl, rfl, rfl, rfl, rfl, rfl, rfl⟩

/-- Settles O47: the host input `run` is accepted in `idle` with no command in progress. -/
theorem runRule : Obligations.RunRule := by
  unfold Obligations.RunRule
  intro s rest hin hv hc
  have haccepts : acceptsCommand { s with hostIn := rest } = true := by simp [acceptsCommand, hv, hc]
  rw [step_of_hostInput hin, State.popped_of_cons hin, hostCommand, hostRun, if_pos haccepts]
  rfl

/-! ### The invariant -/

/-- The part of the state that the invariant speaks of. -/
def State.invView (s : State) : Memory × Nibble × VmState × HaltCause × Option FaultRecord × Slots × Command :=
  (s.mem, s.bank, s.vmState, s.haltCause, s.faultRec, s.slots, s.command)

/-- The invariant does not depend on the rest of the state. -/
theorem State.Inv.of_invView {s t : State} (h : s.Inv) (ht : t.invView = s.invView) : t.Inv := by
  simp only [State.invView, Prod.mk.injEq] at ht
  obtain ⟨hmem, hbank, hvm, hcause, hrec, hslots, hcommand⟩ := ht
  constructor
  case memory => exact hmem ▸ h.memory
  case bank => exact hbank ▸ h.bank
  case upperBanks => exact hmem ▸ h.upperBanks
  case haltCause => exact hvm ▸ hcause ▸ h.haltCause
  case faultRecord => exact hrec ▸ hcause ▸ h.faultRecord
  case console => exact hslots ▸ h.console
  case streams => exact hslots ▸ h.streams
  case loading => exact hvm ▸ hcommand ▸ h.loading
  case running => exact hvm ▸ hcommand ▸ h.running

theorem Memory.read_ofImage_upper (image : List Byte) {a : Nat} (ha : Config.bankSize ≤ a) :
    (Memory.ofImage image).read a = 0x00 := by
  have hlen : (image.take Config.bankSize).length ≤ a := (List.length_take_le _ _).trans ha
  rw [Memory.read_ofImage, List.getD_eq_default _ _ hlen]

theorem resetFrom_inv (p : Params) (image : List Byte) (n : Nat) : (State.resetFrom p image n).Inv where
  memory := Memory.ofImage_wf image
  bank := rfl
  upperBanks _ ha := Memory.read_ofImage_upper image ha
  haltCause := by simp [State.resetFrom]
  faultRecord := by simp [State.resetFrom]
  console := ⟨rfl, rfl⟩
  streams d st h := by
    cases d with
    | slot0 => cases h; exact Nat.zero_le _
    | slot1 | slot2 | slot3 => cases h
  loading h := by cases h
  running h := by cases h

/-- Settles O54: `State.reset` is the reset sequence with the default parameters and the empty image. -/
theorem resetMeetsTheInvariant : Obligations.ResetMeetsTheInvariant := by
  unfold Obligations.ResetMeetsTheInvariant
  exact ⟨resetFrom_inv, resetFrom_inv _ _ _⟩

theorem hostReset_inv (s : State) : (hostReset s).Inv :=
  (resetFrom_inv s.params s.loaderImage (s.freeCount + 1)).of_invView rfl

/-! ### The invariant under each update of the state -/

/-- A write through `BANK` 0 stays in bank 0 and keeps the canonical form (R22, R27). -/
theorem State.Inv.write {s : State} (h : s.Inv) (off : Word) (v : Byte) :
    (s.setMem (s.mem.write (busAddr s.bank off).toNat v)).Inv :=
  { h with
    memory := Memory.write_wf v h.memory (busAddr_lt _ _)
    upperBanks := fun a ha => (s.mem.read_write_upper h.bank off v ha).trans (h.upperBanks a ha) }

/-- A binding of an input keeps the console bound and the positions inside the streams (R28, R29). -/
theorem State.Inv.setIn {s : State} (h : s.Inv) {d : SlotId} {x : Option InStream}
    (hconsole : d = .slot0 → x.isSome = true) (hpos : ∀ st, x = some st → st.pos ≤ st.bytes.length) :
    (s.setIn d x).Inv :=
  { h with
    console := by
      cases d with
      | slot0 => exact ⟨hconsole rfl, h.console.2⟩
      | slot1 | slot2 | slot3 => exact h.console
    streams := fun e => by
      by_cases he : e = d
      · subst he
        rw [State.setIn_slots, Slots.get_set_same]
        exact hpos
      · rw [State.setIn_slots, Slots.get_set_other _ _ _ _ he]
        exact h.streams e }

/-- A binding of an output keeps the console bound (R29). -/
theorem State.Inv.setOut {s : State} (h : s.Inv) {d : SlotId} {x : Option (List Byte)}
    (hconsole : d = .slot0 → x.isSome = true) : (s.setOut d x).Inv :=
  { h with
    console := by
      cases d with
      | slot0 => exact ⟨h.console.1, hconsole rfl⟩
      | slot1 | slot2 | slot3 => exact h.console
    streams := fun e => by
      by_cases he : e = d
      · subst he
        rw [State.setOut_slots, Slots.get_set_same]
        exact h.streams e
      · rw [State.setOut_slots, Slots.get_set_other _ _ _ _ he]
        exact h.streams e }

/-- Before a halt there is no halt cause and so no fault record; a halt without a fault writes none (R32, R33). -/
theorem State.Inv.halt {s : State} (h : s.Inv) {cause : HaltCause} (hv : s.vmState ≠ .halted)
    (hnone : cause ≠ .none) (hfault : cause ≠ .fault) : (s.halt cause).Inv :=
  have hno : s.haltCause = .none := not_not.1 (mt h.haltCause.2 hv)
  { h with
    haltCause := iff_of_true rfl hnone
    faultRecord := iff_of_false (fun hr => by cases hno.symm.trans (h.faultRecord.1 hr)) hfault
    loading := fun hl => by cases hl
    running := fun hr => by cases hr }

/-- A fault writes `VMSTATE`, the halt cause and the fault record together (R83, R102). -/
theorem State.Inv.takeFault {s : State} (h : s.Inv) (c : FaultCause) : (takeFault c s).Inv :=
  { h with
    haltCause := iff_of_true rfl nofun
    faultRecord := iff_of_true rfl rfl
    loading := fun hl => by cases hl
    running := fun hr => by cases hr }

/-- `VMSTATE` and the command may move together where neither enters or leaves `halted` (R31, R115). -/
theorem State.Inv.enter {s : State} (h : s.Inv) {v : VmState} {c : Command}
    (hhalted : v = .halted ↔ s.vmState = .halted) (hloading : v = .loading → ∃ rest, c = .load rest) (hrunning : v = .running → c = .run) :
    State.Inv { s with vmState := v, command := c } :=
  { h with
    haltCause := hhalted.trans h.haltCause
    loading := hloading
    running := hrunning }

/-- In `idle` and in `halted` the command is free (R113). -/
theorem State.Inv.setCommand {s : State} (h : s.Inv) (hv : s.vmState = .idle ∨ s.vmState = .halted) (c : Command) :
    (s.setCommand c).Inv :=
  h.enter .rfl (by obtain hv | hv := hv <;> simp [hv]) (by obtain hv | hv := hv <;> simp [hv])

/-- A read leaves the position inside the stream or at its end (R99). -/
theorem InStream.advanced_positioned {st : InStream} (h : st.pos ≤ st.bytes.length) :
    st.advanced.pos ≤ st.advanced.bytes.length := by
  simp only [InStream.advanced]
  split <;> omega

/-! ### The invariant along a step -/

theorem Completes.inv {u t : State} {i : Instr} (h : Completes u i t) (hv : CoreActive u) (hu : u.Inv) : t.Inv := by
  have hnot : u.vmState ≠ .halted := by obtain hv | hv := hv <;> simp [hv]
  cases h with
  | jump | compute | indirect | report => exact hu.of_invView rfl
  | nothing => exact hu
  | store f ea => exact (hu.write (zext16 ea) u.acc).of_invView rfl
  | call f =>
    exact ((hu.write (zext16 f) (highByte u.pc)).write (zext16 f + 1) (lowByte u.pc)).of_invView rfl
  | cnHalt | osHalt => exact hu.halt hnot nofun nofun
  | endSegment => exact hu.enter (iff_of_false nofun hnot) nofun nofun
  | read v hst =>
    have hpos := InStream.advanced_positioned (hu.streams _ _ hst)
    exact (hu.setIn (fun _ => rfl) fun _ hx => Option.some.inj hx ▸ hpos).of_invView rfl
  | write => exact hu.setOut fun _ => rfl

theorem leaveLoop_inv {s : State} (h : s.Inv) : (leaveLoop s).Inv := by
  obtain hl | ⟨_, hl⟩ := leaveLoop_cases s
  · rw [hl]
    exact h
  · rw [hl]
    exact h.setIn nofun nofun

theorem startSegment_inv {s : State} (h : s.Inv) (seg : List Byte) (rest : List (List Byte))
    (hv : s.vmState = .idle) : (startSegment s seg rest).Inv := by
  have hbound : (s.setIn .slot1 (some ⟨seg, 0⟩)).Inv := h.setIn nofun (by rintro _ ⟨⟩; exact Nat.zero_le _)
  have hloading := hbound.enter (v := .loading) (c := .load rest) (by simp [hv]) (fun _ => ⟨rest, rfl⟩) nofun
  exact hloading.of_invView (by simp [State.invView, startSegment, h.bank])

/-- A move keeps the invariant. -/
theorem Moves.inv {s t : State} (h : Moves s t) (hs : s.Inv) : t.Inv := by
  cases h with
  | stay => exact hs
  | fault c => exact hs.takeFault c
  | complete hv h => exact h.inv hv (hs.of_invView rfl)
  | bindIn x _ hd =>
    refine hs.setIn (fun h0 => absurd h0 hd) fun st hst => ?_
    obtain ⟨bytes, _, rfl⟩ := Option.map_eq_some_iff.1 hst
    exact Nat.zero_le _
  | bindOut x _ hd => exact hs.setOut fun h0 => absurd h0 hd
  | startSegment seg rest hv => exact startSegment_inv hs seg rest hv
  | endLoad x hv hx =>
    have hpos : ∀ st, x = some st → st.pos ≤ st.bytes.length := by
      obtain rfl | rfl := hx
      · exact hs.streams .slot1
      · nofun
    have hbound : (s.setIn .slot1 x).Inv := hs.setIn nofun hpos
    exact hbound.setCommand (.inl hv) _
  | run hv => exact (hs.enter (v := .running) (by simp [hv]) nofun fun _ => rfl).of_invView rfl
  | cancel hv => exact hs.halt hv nofun nofun
  | endCommand c hv => exact (leaveLoop_inv hs).setCommand (.inr (by rwa [leaveLoop_vmState])) c

/-- Settles O55: a reset meets the invariant from any state, and every other move keeps it. -/
theorem stepKeepsTheInvariant : Obligations.StepKeepsTheInvariant := by
  unfold Obligations.StepKeepsTheInvariant
  intro s t hs h
  obtain ⟨_, _, rfl⟩ | h := step_moves h
  · exact hostReset_inv _
  · exact h.inv (hs.of_invView rfl)

end Sys2Proof.Machine

namespace Sys2Proof.Machine

/-! ### The writers of memory and of the slots -/

/-- The writers of `MEM` (R38). -/
theorem Completes.mem {u t : State} {i : Instr} (h : Completes u i t) (hmem : t.mem ≠ u.mem) :
    (∃ f, i = .mm f) ∨ ∃ f, i = .sc f := by
  cases h with
  | store f => exact .inl ⟨f, rfl⟩
  | call f => exact .inr ⟨f, rfl⟩
  | _ => exact absurd rfl hmem

/-- Settles O31: of the completions only a store and a call write memory, and a fault leaves it. -/
theorem onlyMmAndScWriteMemory : Obligations.OnlyMmAndScWriteMemory := by
  unfold Obligations.OnlyMmAndScWriteMemory
  intro i s t h hmem
  obtain h | ⟨c, rfl⟩ := exec_completes h
  · exact h.mem hmem
  · exact absurd rfl hmem

/-- A completion leaves the slots, or it is an IO's and replaces the one slot that the IO names (R39, R99). -/
theorem Completes.slots {u t : State} {i : Instr} (h : Completes u i t) :
    t.slots = u.slots ∨ ∃ op d x, i = .io op d ∧ t.slots = u.slots.set d.id x := by
  cases h with
  | read | write => exact .inr ⟨_, _, _, rfl, rfl⟩
  | _ => exact .inl rfl

/-- What `exec` does to the slots: a fault too leaves them (R39, R83). -/
theorem exec_slots {i : Instr} {s t : State} (h : exec i s = .next t) :
    t.slots = s.slots ∨ ∃ op d x, i = .io op d ∧ t.slots = s.slots.set d.id x := by
  obtain h | ⟨c, rfl⟩ := exec_completes h
  · exact h.slots
  · exact .inl rfl

/-- Settles O33: an IO replaces one slot, so it leaves the others. -/
theorem onlyIoReachesSlots : Obligations.OnlyIoReachesSlots := by
  unfold Obligations.OnlyIoReachesSlots
  intro i s t h
  obtain hsame | ⟨op, d, x, rfl, hset⟩ := exec_slots h
  · exact ⟨fun hne => absurd hsame hne, fun _ _ _ _ _ => by rw [hsame]⟩
  · refine ⟨fun _ => ⟨op, d, rfl⟩, ?_⟩
    rintro _ _ e ⟨⟩ he
    rw [hset, Slots.get_set_other _ _ _ _ he]

/-! ### The step in terms of the fetch -/

theorem step_of_fetchInstr_error {s : State} {c : FaultCause} (hs : s.executing) (h : fetchInstr s = .error c) :
    step s = .next (takeFault c s) := by
  rw [step_of_executing hs, coreStep, h]

theorem step_of_fetchInstr_ok {s : State} {i : Instr} (hs : s.executing) (h : fetchInstr s = .ok i) :
    step s = exec i s := by
  rw [step_of_executing hs, coreStep, h]

/-! ### The faults of a fetch -/

theorem opcodeOf_toNat (b : Byte) : (opcodeOf b).toNat = b.toNat / 16 := by
  have hlt : b.toNat / 16 < 2 ^ 4 := by omega
  rw [opcodeOf, BitVec.extractLsb'_toNat, Nat.shiftRight_eq_div_pow, Nat.mod_eq_of_lt hlt]

/-- A first byte from 0xD0 on has no width (R67). -/
theorem widthOf_of_illegal (ws : InsnWidths) {b : Byte} (hb : 0xD0 ≤ b.toNat) :
    widthOf ws b = .error (.illegalOpcode (opcodeOf b)) := by
  have hillegal : legalOpcode (opcodeOf b) = false := by
    rw [legalOpcode, opcodeOf_toNat, decide_eq_false_iff_not]
    omega
  have hnone : ws.lookup (opcodeOf b) = none := by
    rw [← Option.not_isSome_iff_eq_none, lookup_isSome, hillegal]
    exact Bool.false_ne_true
  rw [widthOf, hnone]

theorem fetchInstr_past_bank {s : State} (h : Config.lastOffset < s.pc.toNat) :
    fetchInstr s = .error .bankOverrun := by
  rw [fetchInstr_eq, if_neg (Nat.not_le.2 h)]

theorem fetchInstr_of_illegal {s : State} (h : s.pc.toNat ≤ Config.lastOffset)
    (hb : 0xD0 ≤ (s.byteAt s.pc.toNat).toNat) : fetchInstr s = .error .illegalOpcode := by
  rw [fetchInstr_eq, if_pos h, widthOf_of_illegal _ hb]

/-- A two-byte instruction at the last offset overruns the bank with its second byte (R45, R110). -/
theorem fetchInstr_of_second_byte_past_bank {s : State} (h : s.pc.toNat = Config.lastOffset)
    (hw : widthOf s.params.widths (s.byteAt s.pc.toNat) = .ok .two) : fetchInstr s = .error .bankOverrun := by
  rw [fetchInstr_eq, if_pos (Nat.le_of_eq h), hw]
  exact if_neg (by omega)

/-- Settles O7: the fetch checks the first byte's offset, then its opcode, then the second byte's offset. -/
theorem fetchFaultsInOrder : Obligations.FetchFaultsInOrder := by
  unfold Obligations.FetchFaultsInOrder
  refine fun s hs => ⟨fun hpc => ?_, fun hpc hb => ?_, fun hpc hlookup => ?_⟩
  · exact step_of_fetchInstr_error hs (fetchInstr_past_bank hpc)
  · exact step_of_fetchInstr_error hs (fetchInstr_of_illegal hpc hb)
  · have hw : widthOf s.params.widths (s.byteAt s.pc.toNat) = .ok .two := by rw [widthOf, hlookup]
    exact step_of_fetchInstr_error hs (fetchInstr_of_second_byte_past_bank hpc hw)

/-! ### Fetching a stored byte -/

/-- An instruction of one byte has the one-byte format, and the byte is the high byte of its word (R58). -/
theorem encode_eq_singleton {ws : InsnWidths} {i : Instr} {b : Byte} (h : encode ws i = [b]) :
    i.width ws = .one ∧ highByte (i.irWord ws) = b := by
  cases hw : i.width ws <;> rw [encode, hw] at h <;> cases h
  exact ⟨rfl, rfl⟩

/-- A well-formed one-byte instruction that stands at `PC` is the one the fetch reads (R78, R79). -/
theorem fetchInstr_of_encode_singleton {s : State} {i : Instr} (hpc : s.pc.toNat ≤ Config.lastOffset)
    (hwf : i.wellFormed s.params.widths = true) (henc : encode s.params.widths i = [s.byteAt s.pc.toNat]) :
    fetchInstr s = .ok i := by
  obtain ⟨hone, hbyte⟩ := encode_eq_singleton henc
  have hwidth : widthOf s.params.widths (s.byteAt s.pc.toNat) = .ok .one := by
    rw [← hbyte, widthOf_irWord, hone]
  have hir : irOf .one (s.byteAt s.pc.toNat) 0x00 = i.irWord s.params.widths := by
    rw [← hbyte, Instr.irWord, hone, irOf_one_irWordOf]
  have hdecode : decodeIR .one (i.irWord s.params.widths) = .ok i := by
    rw [← hone]
    exact decodeIR_irWord hwf
  rw [fetchInstr_eq, if_pos hpc, hwidth]
  simp only [hir, hdecode, Except.mapError]

/-- MM in direct mode stores at its own field (R81, R94). -/
theorem exec_mm_direct {s : State} (hind : s.ind = false) (field : Field) :
    exec (.mm field) s =
      .next ((((s.fetched (.mm field)).setInd false).setMem
        (s.mem.write (busAddr s.bank (zext16 field)).toNat s.acc)).report
          (boundaryCheck s.vmState (busAddr s.bank (zext16 field)))) := by
  rw [exec_eq_commit, instrEffect, storeEffect_eq, effectiveOperand_fetched, effectiveOperand_direct hind]
  rfl

theorem busAddr_zext16_toNat (b : Nibble) (field : Field) :
    (busAddr b (zext16 field)).toNat = Config.bankSize * b.toNat + field.toNat := by
  rw [busAddr_toNat _ _ (by rw [zext16_toNat]; exact toNat_le_lastOffset field), zext16_toNat]

/-- A byte written at an offset of the bank is the byte there (R15, R44). -/
theorem State.byteAt_write (s : State) (field : Field) (v : Byte) :
    (s.setMem (s.mem.write (busAddr s.bank (zext16 field)).toNat v)).byteAt field.toNat = v := by
  rw [State.byteAt, State.setMem_mem, State.setMem_bank, busAddr_zext16_toNat, Memory.read_write_same]

/-- Settles O9: after the store the byte at `PC` is the accumulator, and the core still executes. -/
theorem storeIsFetchedByTheNextStep : Obligations.StoreIsFetchedByTheNextStep := by
  unfold Obligations.StoreIsFetchedByTheNextStep
  intro s field i hs hind hfield hwf henc
  refine ⟨_, exec_mm_direct hind field, step_of_fetchInstr_ok hs ?_⟩
  have hpc : (s.fetched (.mm field)).pc.toNat = field.toNat := by
    rw [fetched_pc_eq_pcAfter]
    exact hfield.symm
  apply fetchInstr_of_encode_singleton
  · exact hpc ▸ toNat_le_lastOffset field
  · exact hwf
  · have hbyte := State.byteAt_write s field s.acc
    rw [← hpc] at hbyte
    exact henc.trans (congrArg (fun b => [b]) hbyte.symm)

end Sys2Proof.Machine

namespace Sys2Proof.Machine

/-! ### The operand of an instruction word -/

/-- A bit vector is its high bits over its low ones. -/
theorem extractLsb'_append_low {m n : Nat} (x : BitVec (m + n)) : x.extractLsb' n m ++ x.extractLsb' 0 n = x :=
  (BitVec.extractLsb'_append_extractLsb'_eq_extractLsb' (Nat.zero_add n).symm).trans BitVec.extractLsb'_eq_self

/-- The two halves of a first byte, opcode over `sub`, make it up (R58, R62). -/
theorem opcodeOf_append_subOf (b0 b1 : Byte) : (opcodeOf b0 ++ subOf (wordOf b0 b1) : Byte) = b0 := by
  have hsub : subOf (wordOf b0 b1) = b0.extractLsb' 0 4 := by
    ext k hk
    simp [subOf, getLsbD_wordOf]
  rw [hsub, opcodeOf]
  exact extractLsb'_append_low (m := 4) (n := 4) b0

/-- Opcode over the low 12 bits is the whole word (R57, R62). -/
theorem opcodeOf_highByte_append_low12 (ir : Word) : (opcodeOf (highByte ir) ++ low12 ir : Word) = ir := by
  rw [opcodeOf_highByte_eq, low12]
  exact extractLsb'_append_low (m := 4) (n := 12) ir

@[simp] theorem highByte_irOf (w : OpWidth) (b0 b1 : Byte) : highByte (irOf w b0 b1) = b0 := by
  cases w <;> exact highByte_wordOf b0 _

/-- No bit of `IR` lies outside its opcode and its operand, in either format (R57, R58, R62). -/
theorem irWordOf_operandOf_irOf (w : OpWidth) (b0 b1 : Byte) :
    irWordOf w (opcodeOf b0) (operandOf w (irOf w b0 b1)) = irOf w b0 b1 := by
  cases w with
  | one =>
    rw [irOf, operandOf, irWordOf, BitVec.setWidth_setWidth_of_le _ (by decide), BitVec.setWidth_eq,
      opcodeOf_append_subOf]
  | two =>
    have h := opcodeOf_highByte_append_low12 (irOf .two b0 b1)
    rwa [highByte_irOf] at h

/-- The operand read from `IR` fits the format it was read in (R57, R58). -/
theorem operandFits_operandOf (w : OpWidth) (ir : Word) : operandFits w (operandOf w ir) = true := by
  cases w with
  | two => rfl
  | one =>
    have hsub : (subOf ir).toNat < 16 := (subOf ir).isLt
    rw [operandFits, operandOf, Bool.or_eq_true, decide_eq_true_eq, BitVec.toNat_setWidth]
    exact .inr (Nat.lt_of_le_of_lt (Nat.mod_le _ _) hsub)

/-- The operand of a one-byte word is the operand masked to 4 bits (R58, R73). -/
theorem operandOf_irWordOf_one (op : Nibble) (x : Field) :
    operandOf .one (irWordOf .one op x) = (x.setWidth 4).setWidth 12 := by
  rw [irWordOf, operandOf, subOf_wordOf]

/-- A word built from opcode and operand is the `IR` that its own bytes fill (R62). -/
theorem irOf_irWordOf (w : OpWidth) (op : Nibble) (x : Field) :
    irOf w (highByte (irWordOf w op x)) (lowByte (irWordOf w op x)) = irWordOf w op x := by
  cases w with
  | one => exact irOf_one_irWordOf op x
  | two => exact wordOf_highByte_lowByte _

/-! ### What dispatch reads -/

theorem ioOpBits_ioOpOf (t : BitVec 2) : ioOpBits (ioOpOf t) = t := by
  revert t; decide

theorem slotBits_slotIdOf (d : BitVec 2) : slotBits (slotIdOf d) = d := by
  revert d; decide

/-- An IO read from an operand keeps all 12 bits of it (R66). -/
theorem operand_io_of_field (x : Field) :
    (Instr.io (ioOpOf (x.extractLsb' 2 2)) ⟨slotIdOf (x.extractLsb' 0 2), x.extractLsb' 4 8⟩).operand = x := by
  have hlow : x.extractLsb' 2 2 ++ x.extractLsb' 0 2 = x.extractLsb' 0 4 :=
    BitVec.extractLsb'_append_extractLsb'_eq_extractLsb' (Nat.zero_add 2).symm
  rw [Instr.operand, ioOpBits_ioOpOf, slotBits_slotIdOf, hlow]
  exact extractLsb'_append_low (m := 8) (n := 4) x

/-- Dispatch gives the one instruction with that opcode and that operand (R64, R66). -/
theorem instrOf_eq_ok_iff {op : Nibble} {x : Field} {i : Instr} :
    instrOf op x = .ok i ↔ i.opcode = op ∧ i.operand = x := by
  constructor
  · intro h
    unfold instrOf at h
    split at h <;> cases h
    case h_13 hop => exact ⟨BitVec.eq_of_toNat_eq hop.symm, operand_io_of_field x⟩
    all_goals exact ⟨BitVec.eq_of_toNat_eq (Eq.symm ‹_›), rfl⟩
  · rintro ⟨rfl, rfl⟩
    exact instrOf_operand i

theorem decodeIR_eq_ok_iff {w : OpWidth} {ir : Word} {i : Instr} :
    decodeIR w ir = .ok i ↔ i.opcode = opcodeOf (highByte ir) ∧ i.operand = operandOf w ir := by
  rw [decodeIR, instrOf_eq_ok_iff, opcodeOf_highByte_eq]

/-- The width of a first byte is the one its opcode has (R60). -/
theorem widthOf_eq_ok_iff {ws : InsnWidths} {b0 : Byte} {w : OpWidth} :
    widthOf ws b0 = .ok w ↔ ws.lookup (opcodeOf b0) = some w := by
  rw [widthOf]
  cases ws.lookup (opcodeOf b0) <;> simp

/-- An instruction read from a filled `IR` is well formed and its encoding is the bytes that filled it (R60, R62,
R69). -/
theorem encode_of_decodeIR {ws : InsnWidths} {b0 b1 : Byte} {w : OpWidth} {i : Instr} (hw : widthOf ws b0 = .ok w)
    (hi : decodeIR w (irOf w b0 b1) = .ok i) :
    i.wellFormed ws = true ∧ encode ws i = bytesOf w (irOf w b0 b1) := by
  obtain ⟨hop, hx⟩ := decodeIR_eq_ok_iff.1 hi
  rw [highByte_irOf] at hop
  have hwidth : i.width ws = w := by
    have hlookup := widthOf_eq_ok_iff.1 hw
    rw [← hop, lookup_opcode] at hlookup
    exact Option.some.inj hlookup
  constructor
  · rw [wellFormed_eq_operandFits, hwidth, hx, operandFits_operandOf]
  · rw [encode, Instr.irWord, hwidth, hop, hx, irWordOf_operandOf_irOf]

/-! ### Encoding what was decoded -/

/-- Bytes that decode fill an `IR` from their front, as many as the first byte's width says (R60, R62, R78). -/
theorem decode_ok {ws : InsnWidths} {bytes rest : List Byte} {i : Instr} (h : decode ws bytes = .ok (i, rest)) :
    ∃ b0 b1 w, widthOf ws b0 = .ok w ∧ decodeIR w (irOf w b0 b1) = .ok i ∧
      bytes = bytesOf w (irOf w b0 b1) ++ rest := by
  unfold decode at h
  split at h
  · cases h
  next b0 tail =>
    split at h
    · cases h
    next hw =>
      cases hi : decodeIR .one (irOf .one b0 0x00) <;> rw [hi] at h <;> cases h
      exact ⟨b0, 0x00, .one, hw, hi, by rw [bytesOf, highByte_irOf]; rfl⟩
    next hw =>
      split at h
      · cases h
      next b1 _ =>
        cases hi : decodeIR .two (irOf .two b0 b1) <;> rw [hi] at h <;> cases h
        exact ⟨b0, b1, .two, hw, hi, by rw [bytesOf, highByte_irOf, irOf, lowByte_wordOf]; rfl⟩

/-- Settles O3. The bytes that decode are those that filled `IR`, and no bit of a filled `IR` is ignored. -/
theorem encodeOfDecode : Obligations.EncodeOfDecode := by
  unfold Obligations.EncodeOfDecode
  intro ws bytes rest i h
  obtain ⟨b0, b1, w, hw, hi, hbytes⟩ := decode_ok h
  obtain ⟨hwf, hencode⟩ := encode_of_decodeIR hw hi
  exact ⟨hwf, by rw [hbytes, hencode]⟩

/-! ### The illegal space -/

theorem decode_of_widthOf_error {ws : InsnWidths} {b0 : Byte} {e : DecodeError} (h : widthOf ws b0 = .error e)
    (more : List Byte) : decode ws (b0 :: more) = .error e := by
  simp only [decode, h]

/-- A first byte below 0xD0 has a width (R60, R67). -/
theorem widthOf_of_legal (ws : InsnWidths) {b0 : Byte} (hb : b0.toNat < 0xD0) : ∃ w, widthOf ws b0 = .ok w := by
  have hlegal : legalOpcode (opcodeOf b0) = true := by
    rw [legalOpcode, opcodeOf_toNat, decide_eq_true_eq]
    omega
  rw [← lookup_isSome ws, Option.isSome_iff_exists] at hlegal
  obtain ⟨w, hw⟩ := hlegal
  exact ⟨w, widthOf_eq_ok_iff.2 hw⟩

/-- Two bytes suffice to fill the `IR` of either format (R59, R62). -/
theorem exists_eq_bytesOf_irOf_append (w : OpWidth) (b0 b1 : Byte) (rest : List Byte) :
    ∃ after, b0 :: b1 :: rest = bytesOf w (irOf w b0 b1) ++ after := by
  cases w with
  | one => exact ⟨b1 :: rest, by rw [bytesOf, highByte_irOf]; rfl⟩
  | two => exact ⟨rest, by rw [bytesOf, highByte_irOf, irOf, lowByte_wordOf]; rfl⟩

/-- Settles O4. The first byte alone decides: it has no width from 0xD0 on, and below it two bytes hold the encoding of
an instruction. -/
theorem illegalFirstBytesAreD0ToFF : Obligations.IllegalFirstBytesAreD0ToFF := by
  unfold Obligations.IllegalFirstBytesAreD0ToFF
  refine fun ws b0 b1 rest => ⟨fun hb => decode_of_widthOf_error (widthOf_of_illegal ws hb), fun hb => ?_⟩
  obtain ⟨w, hw⟩ := widthOf_of_legal ws hb
  obtain ⟨i, hi⟩ := decodeIR_ok hw b1
  obtain ⟨hwf, hencode⟩ := encode_of_decodeIR hw hi
  obtain ⟨after, hafter⟩ := exists_eq_bytesOf_irOf_append w b0 b1 rest
  refine ⟨i, after, ?_⟩
  rw [hafter, ← hencode]
  exact decodeOfEncode ws i after hwf

/-! ### Assembled operations -/

/-- The bytes of a word of an opcode decode to the instruction of that opcode with the masked operand (R73, R79). -/
theorem decode_bytesOf_irWordOf {ws : InsnWidths} {op : Nibble} {w : OpWidth} (hw : ws.lookup op = some w) (x : Field) :
    ∃ i, decode ws (bytesOf w (irWordOf w op x)) = .ok (i, []) ∧ i.opcode = op ∧
      i.operand = operandOf w (irWordOf w op x) := by
  have hwidth : widthOf ws (highByte (irWordOf w op x)) = .ok w := by
    rw [widthOf_eq_ok_iff, opcodeOf_irWordOf, hw]
  obtain ⟨i, hi⟩ := decodeIR_ok hwidth (lowByte (irWordOf w op x))
  obtain ⟨hwf, hencode⟩ := encode_of_decodeIR hwidth hi
  rw [irOf_irWordOf] at hi hencode
  obtain ⟨hop, hx⟩ := decodeIR_eq_ok_iff.1 hi
  rw [opcodeOf_irWordOf] at hop
  refine ⟨i, ?_, hop, hx⟩
  have h := decodeOfEncode ws i [] hwf
  rwa [List.append_nil, hencode] at h

/-- Masking an integer to 12 bits and then to 4 is masking it to 4 (R73). -/
theorem setWidth_four_ofInt (n : Int) : (BitVec.ofInt 12 n).setWidth 4 = BitVec.ofInt 4 n := by
  apply BitVec.eq_of_toNat_eq
  rw [BitVec.toNat_setWidth, BitVec.toNat_ofInt, BitVec.toNat_ofInt]
  omega

/-- Settles O5. The assembler masks where it forms the word, so the operand read back is the integer masked to the
format of its opcode. -/
theorem assembledOperationDecodes : Obligations.AssembledOperationDecodes := by
  unfold Obligations.AssembledOperationDecodes
  intro ws op n hop
  rw [← lookup_isSome ws, Option.isSome_iff_exists] at hop
  obtain ⟨w, hw⟩ := hop
  obtain ⟨i, hdecode, hopcode, hoperand⟩ := decode_bytesOf_irWordOf hw (BitVec.ofInt 12 n)
  refine ⟨i, by rw [encodeReal, hw]; exact hdecode, hopcode, ?_⟩
  rw [hoperand, hw]
  cases w with
  | one => rw [if_pos rfl, operandOf_irWordOf_one, setWidth_four_ofInt]
  | two =>
    rw [if_neg (by decide)]
    exact low12_append op _

/-! ### Words of the tables -/

/-- Settles O1. Each word is closed, and the decoder evaluates to the instruction its table gives it. -/
theorem decodeWordsOfTheSpec : Obligations.DecodeWordsOfTheSpec := by
  unfold Obligations.DecodeWordsOfTheSpec
  exact ⟨rfl, rfl, rfl, rfl, rfl, rfl, rfl, rfl, rfl, rfl, rfl⟩

end Sys2Proof.Machine

namespace Sys2Proof.Machine

/-! ### Taking a fault -/

/-- A completion halts by CN 0 or OS 0x00F, or keeps the halt cause (R32). -/
theorem Completes.haltCause {u t : State} {i : Instr} (h : Completes u i t) :
    t.haltCause = u.haltCause ∨ t.haltCause = .cnHalt ∨ t.haltCause = .osHalt := by
  cases h with
  | cnHalt => exact .inr (.inl rfl)
  | osHalt => exact .inr (.inr rfl)
  | _ => exact .inl rfl

/-- An instruction that brings the cause FAULT took a fault: no completion writes that cause (R83, R101). -/
theorem exec_eq_takeFault {i : Instr} {s t : State} (h : exec i s = .next t) (hs : s.haltCause ≠ .fault)
    (ht : t.haltCause = .fault) : ∃ c, t = takeFault c s := by
  obtain hcompletes | hfault := exec_completes h
  · have hcause := hcompletes.haltCause
    rw [ht, State.fetched_haltCause] at hcause
    obtain hsame | hother | hother := hcause
    · exact absurd hsame.symm hs
    · cases hother
    · cases hother
  · exact hfault

/-- Settles O11: the fetch or the instruction takes the fault, either on the state before the fetch. -/
theorem faultsArePrecise : Obligations.FaultsArePrecise := by
  unfold Obligations.FaultsArePrecise
  intro s t hexec hs h ht
  rw [step_of_executing hexec] at h
  obtain ⟨c, _, rfl⟩ | ⟨i, _, h⟩ := coreStep_next h
  · exact ⟨c, rfl⟩
  · exact exec_eq_takeFault h hs ht

/-- Settles O10, field by field from the laws of `takeFault`. -/
theorem faultTakenState : Obligations.FaultTakenState := by
  unfold Obligations.FaultTakenState
  intro c s
  exact ⟨takeFault_faultRec c s, takeFault_vmState c s, takeFault_haltCause c s, takeFault_acc c s, takeFault_pc c s,
    takeFault_bank c s, takeFault_ind c s, takeFault_mem c s, takeFault_slots c s, takeFault_diag c s,
    takeFault_command c s, takeFault_params c s, takeFault_loaderImage c s, takeFault_hostIn c s⟩

/-! ### Single-shot indirect mode -/

theorem exec_cn (sub : Field) (s : State) : exec (.cn sub) s = .next (controlEffect sub (s.fetched (.cn sub))) := rfl

theorem bits8_natCast (n : Nat) : bits8 n = BitVec.ofNat 8 n := BitVec.ofInt_natCast ..

/-- An LD that finds its operand `ea` loads what `ea` stands for and leaves indirect mode; what operands stand for stays
(R81, R82, R93). -/
theorem exec_ld_of_operand {s : State} {field ea : Field} (h : effectiveOperand s field = some ea) :
    ∃ t, exec (.ld field) s = .next t ∧ t.acc = BitVec.ofNat 8 (s.valueAt ea) ∧ t.ind = false ∧
      t.valueAt = s.valueAt := by
  have hv : effectiveValue s field = some (s.valueAt ea) := by rw [effectiveValue, h, Option.map_some]
  exact ⟨_, exec_ld_of_value hv, by rw [State.setAcc_acc, bits8_natCast], rfl, rfl⟩

/-- Settles O29: the first LD finds `IND` set by CN 2, the second finds it cleared by the first, and what an operand
stands for is the same all along. -/
theorem indirectModeIsSingleShot : Obligations.IndirectModeIsSingleShot := by
  unfold Obligations.IndirectModeIsSingleShot
  intro s f g hf
  have hset : ((s.fetched (.cn 2)).setInd true).ind = true := State.setInd_ind _ _
  obtain ⟨u, hfirst, hu, huind, hvalue⟩ := exec_ld_of_operand (effectiveOperand_indirect hset hf)
  obtain ⟨v, hsecond, hv, hvind, _⟩ := exec_ld_of_operand (effectiveOperand_direct huind g)
  rw [hvalue] at hv
  exact ⟨_, u, v, exec_cn 2 s, hfirst, hsecond, hu, huind, hv, hvind⟩

/-! ### Fetching an encoding -/

/-- A well-formed two-byte instruction that stands at `PC` is the one the fetch reads (R78, R79). -/
theorem fetchInstr_of_two_bytes {s : State} {i : Instr} (hpc : s.pc.toNat + 1 ≤ Config.lastOffset)
    (hwf : i.wellFormed s.params.widths = true) (hwidth : i.width s.params.widths = .two)
    (hhigh : s.byteAt s.pc.toNat = highByte (i.irWord s.params.widths))
    (hlow : s.byteAt (s.pc.toNat + 1) = lowByte (i.irWord s.params.widths)) : fetchInstr s = .ok i := by
  have hfirst : widthOf s.params.widths (highByte (i.irWord s.params.widths)) = .ok .two := by
    rw [widthOf_irWord, hwidth]
  have hdecode : decodeIR .two (i.irWord s.params.widths) = .ok i := by
    rw [← hwidth]
    exact decodeIR_irWord hwf
  rw [fetchInstr_eq, if_pos (Nat.le_of_succ_le hpc), hhigh, hlow, hfirst]
  simp only [if_pos hpc, irOf, wordOf_highByte_lowByte, hdecode, Except.mapError]

/-- Bytes at `PC` that begin with the encoding of a well-formed instruction, the whole of it within the bank, are fetched
as that instruction (R78, R79). -/
theorem fetchInstr_of_encode_append {s : State} {i : Instr} {rest : List Byte}
    (hwf : i.wellFormed s.params.widths = true)
    (hbytes : [s.byteAt s.pc.toNat, s.byteAt (s.pc.toNat + 1)] = encode s.params.widths i ++ rest)
    (hin : s.pc.toNat + (i.width s.params.widths).bytes ≤ Config.bankSize) : fetchInstr s = .ok i := by
  cases hwidth : i.width s.params.widths with
  | one =>
    have henc : encode s.params.widths i = [highByte (i.irWord s.params.widths)] := by rw [encode, hwidth]; rfl
    rw [henc] at hbytes
    obtain ⟨hhigh, _⟩ := List.cons.inj hbytes
    rw [hwidth] at hin
    exact fetchInstr_of_encode_singleton (Nat.le_of_succ_le_succ hin) hwf (by rw [henc, hhigh])
  | two =>
    have henc : encode s.params.widths i = [highByte (i.irWord s.params.widths), lowByte (i.irWord s.params.widths)] := by
      rw [encode, hwidth]; rfl
    rw [henc] at hbytes
    obtain ⟨hhigh, hbytes⟩ := List.cons.inj hbytes
    obtain ⟨hlow, _⟩ := List.cons.inj hbytes
    rw [hwidth] at hin
    exact fetchInstr_of_two_bytes (Nat.le_of_succ_le_succ hin) hwf hwidth hhigh hlow

/-- Settles O6: bytes that decode are an encoding and what follows it, and the fetch reads an encoding back. -/
theorem stepRunsDecodedInstruction : Obligations.StepRunsDecodedInstruction := by
  unfold Obligations.StepRunsDecodedInstruction
  intro s i rest hexec hdecode hin
  obtain ⟨hwf, hbytes⟩ := encodeOfDecode _ _ _ _ hdecode
  exact step_of_fetchInstr_ok hexec (fetchInstr_of_encode_append hwf hbytes hin)

/-! ### The operand bits of a wide CN or IO -/

/-- CN with an operand that names none of its cases warns (R87). -/
theorem controlEffect_of_two_lt {sub : Field} (h : 2 < sub.toNat) (s : State) :
    controlEffect sub s = s.warn (.cnUnimplemented sub) := by
  unfold controlEffect
  split
  case h_4 => rfl
  all_goals omega

/-- The state with another word in `IR`. -/
def State.withIr (s : State) (w : Word) : State := { s with ir := w }

/-- The upper operand bits of an IO show only in the `IR` that its fetch fills: its width and its opcode are the same. -/
theorem fetched_io (s : State) (op : IoOp) (d : SlotId) (high low : Byte) :
    s.fetched (.io op ⟨d, high⟩) =
      (s.fetched (.io op ⟨d, low⟩)).withIr ((Instr.io op ⟨d, high⟩).irWord s.params.widths) := rfl

/-- IO neither reads nor writes `IR`. -/
theorem ioEffect_withIr (op : IoOp) (d : SlotId) (s : State) (w : Word) :
    ioEffect op d (s.withIr w) = (ioEffect op d s).map (·.withIr w) := by
  have hslots : (s.withIr w).slots = s.slots := rfl
  cases op with
  | read =>
    simp only [ioEffect, slotRead_eq, hslots]
    cases (s.slots.get d).inp <;> rfl
  | write =>
    simp only [ioEffect, slotWrite_eq, hslots]
    cases (s.slots.get d).out <;> rfl
  | enableInterrupt | disableInterrupt => rfl

/-- An IO with other upper operand bits raises the same fault, or has the same effect but for `IR`. -/
theorem instrEffect_io (s : State) (op : IoOp) (d : SlotId) (high low : Byte) :
    instrEffect (.io op ⟨d, high⟩) s =
      (instrEffect (.io op ⟨d, low⟩) s).map (·.withIr ((Instr.io op ⟨d, high⟩).irWord s.params.widths)) := by
  rw [instrEffect, fetched_io s op d high low, ioEffect_withIr]
  rfl

/-- Settles O60: CN compares its whole operand, and IO only lets the upper bits through to `IR`; a fault keeps not even
those. -/
theorem wideOperandRule : Obligations.WideOperandRule := by
  unfold Obligations.WideOperandRule
  refine ⟨fun s sub hsub => ?_, fun s t op d high h => ?_⟩
  · rw [exec_cn, controlEffect_of_two_lt (by omega), fetched_eq]
    rfl
  · have heffect := instrEffect_io s op d high 0
    rw [exec_eq_commit, heffect]
    obtain hok | ⟨c, hfault, rfl⟩ := exec_next h
    · rw [hok]
      exact ⟨_, rfl, rfl⟩
    · rw [hfault]
      exact ⟨_, rfl, rfl⟩

end Sys2Proof.Machine

namespace Sys2Proof.Machine

/-! ### Two-byte words at the default widths -/

/-- An instruction that takes two bytes at the default widths is its opcode over its operand there (R57, R59). -/
theorem encodesW2_of_width {i : Instr} (h : i.width defaultWidths = .two) : encodesW2 i i.opcode i.operand := by
  rw [encodesW2, encode, Instr.irWord, h]
  rfl

/-! ### The tests of the conditional jumps -/

theorem accIsZero_iff (s : State) : accIsZero s = true ↔ s.acc = 0x00 := by
  rw [accIsZero, beq_iff_eq]

/-- The signed value of a byte is its two's complement value (R13). -/
theorem sval_eq_toInt (b : Byte) : sval b = b.toInt := by
  rw [sval, BitVec.toInt_eq_toNat_cond]
  split <;> split <;> omega

theorem accIsNegative_iff (s : State) : accIsNegative s = true ↔ s.acc.toInt < 0 := by
  rw [accIsNegative, decide_eq_true_eq, sval_eq_toInt]

/-! ### Jumps -/

/-- A jump that finds its operand clears `IND` and goes there if its test holds of the fetched state with `IND` cleared,
else it goes past itself (R81, R84 to R86). -/
theorem exec_jump_of_operand {i : Instr} {taken : State → Bool} {field ea : Field} {s : State} {P : Prop} [Decidable P]
    (hi : instrEffect i s = jumpEffect taken field (s.fetched i)) (h : effectiveOperand s field = some ea)
    (htest : taken ((s.fetched i).setInd false) = true ↔ P) :
    exec i s =
      .next { s with
        ir := s.irFor i.opcode i.operand, ind := false
        pc := if P then ea.setWidth 16 else s.pcAfter i.opcode } := by
  rw [exec_eq_commit, hi, jumpEffect_eq, effectiveOperand_fetched, h]
  by_cases hP : P
  · simp only [htest.2 hP, if_pos hP, if_true]
    rw [fetched_eq]
    rfl
  · simp only [mt htest.1 hP, if_neg hP]
    rw [fetched_eq]
    rfl

/-- A jump whose pointer would lie past the bank takes the fault, whatever its test (R81, R110). -/
theorem exec_jump_of_no_operand {i : Instr} {taken : State → Bool} {field : Field} {s : State}
    (hi : instrEffect i s = jumpEffect taken field (s.fetched i)) (h : effectiveOperand s field = none) :
    exec i s = .next (takeFault .bankOverrun s) := by
  rw [exec_eq_commit, hi, jumpEffect_eq, effectiveOperand_fetched, h]
  rfl

/-- Settles O12: JP is the jump whose test always holds. -/
theorem jpRule : Obligations.JpRule := by
  unfold Obligations.JpRule
  refine fun s field => ⟨encodesW2_of_width rfl, fun ea hea => ?_, exec_jump_of_no_operand rfl⟩
  rw [exec_jump_of_operand (P := True) rfl hea (iff_true_intro rfl)]
  rfl

/-- Settles O13: JZ tests the pattern of `ACC`, which neither the fetch nor the resolution writes. -/
theorem jzRule : Obligations.JzRule := by
  unfold Obligations.JzRule
  refine fun s field => ⟨encodesW2_of_width rfl, fun ea hea => ?_, exec_jump_of_no_operand rfl⟩
  exact exec_jump_of_operand rfl hea (accIsZero_iff _)

/-- Settles O14: JN tests the signed value of `ACC`, which neither the fetch nor the resolution writes. -/
theorem jnRule : Obligations.JnRule := by
  unfold Obligations.JnRule
  refine fun s field => ⟨encodesW2_of_width rfl, fun ea hea => ?_, exec_jump_of_no_operand rfl⟩
  exact exec_jump_of_operand rfl hea (accIsNegative_iff _)

end Sys2Proof.Machine

namespace Sys2Proof.Machine

/-! ### One-byte words at the default widths -/

/-- An instruction that takes one byte at the default widths is its opcode over the low 4 bits of its operand there
(R58, R59). -/
theorem encodesW1_of_width {i : Instr} (h : i.width defaultWidths = .one) :
    encodesW1 i i.opcode (i.operand.setWidth 4) := by
  rw [encodesW1, encode, Instr.irWord, h, irWordOf, bytesOf, highByte_wordOf]

/-- A 4-bit operand fits the one-byte format (R58). -/
theorem setWidth_four_setWidth_twelve (n : Nibble) : (n.setWidth 12).setWidth 4 = n := by
  rw [BitVec.setWidth_setWidth_of_le _ (by decide), BitVec.setWidth_eq]

/-- The byte of a CN with a 4-bit operand (R65). -/
theorem encodesW1_cn (n : Nibble) : encodesW1 (.cn (n.setWidth 12)) 0x3 n := by
  have h : encodesW1 (.cn (n.setWidth 12)) 0x3 ((n.setWidth 12).setWidth 4) := encodesW1_of_width rfl
  rwa [setWidth_four_setWidth_twelve] at h

/-! ### CN -/

theorem controlEffect_zero (s : State) : controlEffect 0 s = s.halt .cnHalt := rfl

theorem controlEffect_one (s : State) : controlEffect 1 s = s := rfl

theorem controlEffect_two (s : State) : controlEffect 2 s = s.setInd true := rfl

/-- CN acts on the state whose `IR` holds it and whose `PC` is past it (R78, R87). -/
theorem exec_cn_eq (sub : Field) (s : State) :
    exec (.cn sub) s = .next (controlEffect sub { s with ir := s.irFor 0x3 sub, pc := s.pcAfter 0x3 }) := by
  rw [exec_cn, fetched_eq]
  rfl

/-- Settles O15, case by case of the effect on the fetched state; the operand is compared in full, so from 3 on it names
none of the first three cases. -/
theorem cnRule : Obligations.CnRule := by
  unfold Obligations.CnRule
  refine fun s sub => ⟨encodesW1_cn, ?halt, ?nothing, ?indirect, ?warn⟩
  case halt =>
    rintro rfl
    rw [exec_cn_eq, controlEffect_zero, State.halt]
  case nothing =>
    rintro rfl
    rw [exec_cn_eq, controlEffect_one]
  case indirect =>
    rintro rfl
    rw [exec_cn_eq, controlEffect_two, State.setInd]
  case warn =>
    intro hlow _
    rw [exec_cn_eq, controlEffect_of_two_lt hlow, State.warn, State.report]

end Sys2Proof.Machine

namespace Sys2Proof.Machine

/-! ### The ALU law -/

section AluLaw

variable {i : Instr} {f : Int → Nat → Except FaultCause Int} {field : Field} {s : State}

/-- An operand value reaches the operation with the signed value of `ACC`, which neither the fetch nor the resolution
writes (R81, R88). -/
theorem aluEffect_fetched_of_value {v : Nat} (hv : effectiveValue s field = some v) :
    aluEffect f field (s.fetched i) =
      (f s.acc.toInt v).map fun r => ((s.fetched i).setInd false).setAcc (bits8 r) := by
  rw [aluEffect_eq, effectiveValue_fetched, hv, State.fetched_acc, sval_eq_toInt]

/-- An arithmetic instruction that finds its operand value clears `IND` and writes the result modulo 256 to `ACC`
(R81, R88). -/
theorem exec_alu_of_ok {v : Nat} {r : Int} (hi : instrEffect i s = aluEffect f field (s.fetched i))
    (hv : effectiveValue s field = some v) (hr : f s.acc.toInt v = .ok r) :
    exec i s =
      .next { s with
        ir := s.irFor i.opcode i.operand, pc := s.pcAfter i.opcode, ind := false
        acc := BitVec.ofInt 8 r } := by
  rw [exec_eq_commit, hi, aluEffect_fetched_of_value hv, hr, fetched_eq]
  rfl

/-- An arithmetic instruction whose operation faults on its operand value takes that fault (R83, R88). -/
theorem exec_alu_of_error {v : Nat} {c : FaultCause} (hi : instrEffect i s = aluEffect f field (s.fetched i))
    (hv : effectiveValue s field = some v) (hr : f s.acc.toInt v = .error c) :
    exec i s = .next (takeFault c s) := by
  rw [exec_eq_commit, hi, aluEffect_fetched_of_value hv, hr]
  rfl

/-- An arithmetic instruction whose pointer would lie past the bank takes the fault before its operation (R81, R110). -/
theorem exec_alu_of_no_value (hi : instrEffect i s = aluEffect f field (s.fetched i))
    (hv : effectiveValue s field = none) : exec i s = .next (takeFault .bankOverrun s) := by
  rw [exec_eq_commit, hi, aluEffect_eq, effectiveValue_fetched, hv]
  rfl

end AluLaw

/-! ### Addition, subtraction, multiplication -/

theorem instrEffect_add (field : Field) (s : State) :
    instrEffect (.add field) s = aluEffect (fun a v => .ok (a + v)) field (s.fetched (.add field)) := rfl

theorem instrEffect_sub (field : Field) (s : State) :
    instrEffect (.sub field) s = aluEffect (fun a v => .ok (a - v)) field (s.fetched (.sub field)) := rfl

theorem instrEffect_mul (field : Field) (s : State) :
    instrEffect (.mul field) s = aluEffect (fun a v => .ok (a * v)) field (s.fetched (.mul field)) := rfl

theorem exec_add_of_value {s : State} {field : Field} {v : Nat} (hv : effectiveValue s field = some v) :
    exec (.add field) s =
      .next { s with
        ir := s.irFor 0x4 field, pc := s.pcAfter 0x4, ind := false
        acc := BitVec.ofInt 8 (s.acc.toInt + v) } :=
  exec_alu_of_ok (instrEffect_add field s) hv rfl

theorem exec_sub_of_value {s : State} {field : Field} {v : Nat} (hv : effectiveValue s field = some v) :
    exec (.sub field) s =
      .next { s with
        ir := s.irFor 0x5 field, pc := s.pcAfter 0x5, ind := false
        acc := BitVec.ofInt 8 (s.acc.toInt - v) } :=
  exec_alu_of_ok (instrEffect_sub field s) hv rfl

theorem exec_mul_of_value {s : State} {field : Field} {v : Nat} (hv : effectiveValue s field = some v) :
    exec (.mul field) s =
      .next { s with
        ir := s.irFor 0x6 field, pc := s.pcAfter 0x6, ind := false
        acc := BitVec.ofInt 8 (s.acc.toInt * v) } :=
  exec_alu_of_ok (instrEffect_mul field s) hv rfl

/-- Settles O16: + is the ALU law with an operation that never faults. -/
theorem addRule : Obligations.AddRule := by
  unfold Obligations.AddRule
  exact fun s field => ⟨encodesW2_of_width rfl, fun _ => exec_add_of_value,
    exec_alu_of_no_value (instrEffect_add field s)⟩

/-- Settles O17: - is the ALU law with an operation that never faults. -/
theorem subRule : Obligations.SubRule := by
  unfold Obligations.SubRule
  exact fun s field => ⟨encodesW2_of_width rfl, fun _ => exec_sub_of_value,
    exec_alu_of_no_value (instrEffect_sub field s)⟩

/-- Settles O18: * is the ALU law with an operation that never faults. -/
theorem mulRule : Obligations.MulRule := by
  unfold Obligations.MulRule
  exact fun s field => ⟨encodesW2_of_width rfl, fun _ => exec_mul_of_value,
    exec_alu_of_no_value (instrEffect_mul field s)⟩

/-! ### Arithmetic modulo 256 -/

/-- `bits_8` depends on the number modulo 256 only (R13). -/
theorem ofInt_eight_eq_of_modEq {m n : Int} (h : m ≡ n [ZMOD 256]) : BitVec.ofInt 8 m = BitVec.ofInt 8 n := by
  have hmod : m % 256 = n % 256 := h
  apply BitVec.eq_of_toNat_eq
  simp only [BitVec.toNat_ofInt, Nat.reducePow, Nat.cast_ofNat, hmod]

/-- Settles O21: the three operations respect congruence modulo 256, and `ACC` holds the result modulo 256. -/
theorem arithmeticUsesOperandModulo256 : Obligations.ArithmeticUsesOperandModulo256 := by
  unfold Obligations.ArithmeticUsesOperandModulo256
  intro s f g v w hv hw hvw
  have hmod : (v : Int) ≡ w [ZMOD 256] := Int.natCast_modEq_iff.2 hvw
  refine ⟨⟨_, _, exec_add_of_value hv, exec_add_of_value hw, ?add⟩,
    ⟨_, _, exec_sub_of_value hv, exec_sub_of_value hw, ?sub⟩,
    ⟨_, _, exec_mul_of_value hv, exec_mul_of_value hw, ?mul⟩⟩
  case add => exact ofInt_eight_eq_of_modEq (hmod.add_left _)
  case sub => exact ofInt_eight_eq_of_modEq (hmod.sub_left _)
  case mul => exact ofInt_eight_eq_of_modEq (hmod.mul_left _)

/-! ### Division -/

theorem floorDivide_zero (a : Int) : floorDivide a 0 = .error .divideByZero := rfl

/-- For a divisor other than 0, floor division is the floor of the rational quotient (R92). -/
theorem floorDivide_of_ne_zero (a : Int) {v : Nat} (hv : v ≠ 0) : floorDivide a v = .ok ⌊(a : ℚ) / (v : ℚ)⌋ := by
  rw [floorDivide, if_neg hv, Int.fdiv_eq_ediv_of_nonneg _ (Int.natCast_nonneg v), Rat.floor_intCast_div_natCast]

theorem exec_div_of_ne_zero {s : State} {field : Field} {v : Nat} (hv : effectiveValue s field = some v) (hne : v ≠ 0) :
    exec (.div field) s =
      .next { s with
        ir := s.irFor 0x7 field, pc := s.pcAfter 0x7, ind := false
        acc := BitVec.ofInt 8 ⌊(s.acc.toInt : ℚ) / (v : ℚ)⌋ } :=
  exec_alu_of_ok rfl hv (floorDivide_of_ne_zero _ hne)

/-- Settles O19: / is the ALU law with floor division, which faults on 0 alone. -/
theorem divRule : Obligations.DivRule := by
  unfold Obligations.DivRule
  exact fun s field => ⟨encodesW2_of_width rfl, fun _ => exec_div_of_ne_zero,
    fun hzero => exec_alu_of_error rfl hzero (floorDivide_zero _), exec_alu_of_no_value rfl⟩

/-- A number in the signed range of a byte is the signed value of its pattern (R13). -/
theorem toInt_ofInt_eight {n : Int} (hlow : -128 ≤ n) (hhigh : n < 128) : (BitVec.ofInt 8 n).toInt = n := by
  rw [BitVec.toInt_ofInt]
  exact Int.bmod_eq_of_le (by omega) (by omega)

/-- Floor division of a signed byte by a positive number stays in the signed range: not even -128 overflows, as the
divisor is never -1 (R92). -/
theorem floor_toInt_div_bounds (b : Byte) {v : Nat} (hv : v ≠ 0) :
    -128 ≤ ⌊(b.toInt : ℚ) / (v : ℚ)⌋ ∧ ⌊(b.toInt : ℚ) / (v : ℚ)⌋ < 128 := by
  have hpos : (0 : Int) < v := by omega
  have hlow : -128 ≤ b.toInt := BitVec.le_toInt b
  have hhigh : b.toInt < 128 := BitVec.toInt_lt
  rw [Rat.floor_intCast_div_natCast, Int.le_ediv_iff_mul_le hpos, Int.ediv_lt_iff_lt_mul hpos]
  constructor <;> omega

/-- Settles O20: the quotient is in the signed range of a byte, so its pattern stands for it exactly. -/
theorem divisionIsExact : Obligations.DivisionIsExact := by
  unfold Obligations.DivisionIsExact
  intro s field v hv hne
  obtain ⟨hlow, hhigh⟩ := floor_toInt_div_bounds s.acc hne
  exact ⟨_, exec_div_of_ne_zero hv hne, toInt_ofInt_eight hlow hhigh⟩

end Sys2Proof.Machine

namespace Sys2Proof.Machine

/-! ### LD: the whole outcome -/

/-- An LD whose pointer would lie past the bank takes the fault (R81, R110). -/
theorem exec_ld_of_no_value {s : State} {field : Field} (h : effectiveValue s field = none) :
    exec (.ld field) s = .next (takeFault .bankOverrun s) := by
  rw [exec_eq_commit, instrEffect, loadEffect_eq, effectiveValue_fetched, h]
  rfl

/-- Settles O22: LD writes the operand value modulo 256 to `ACC` of the fetched state with `IND` cleared. -/
theorem ldRule : Obligations.LdRule := by
  unfold Obligations.LdRule
  refine fun s field => ⟨encodesW2_of_width rfl, fun v hv => ?_, exec_ld_of_no_value⟩
  rw [exec_ld_of_value hv, bits8_natCast, fetched_eq]
  rfl

/-! ### MM: the whole outcome -/

/-- A resolution after the fetch answers the effective operand of the state before it: the fetch writes neither `IND` nor
the memory (R78, R81). -/
theorem effectiveOperand_of_resolve_fetched {s u : State} {i : Instr} {field ea : Field}
    (h : resolve field (s.fetched i) = .ok (ea, u)) : effectiveOperand s field = some ea := by
  rw [resolve_eq, effectiveOperand_fetched] at h
  cases hop : effectiveOperand s field <;> rw [hop] at h <;> cases h
  rfl

/-- An MM that finds its operand clears `IND`, stores `ACC` there and gives the boundary warning (R48, R81, R94). -/
theorem exec_mm_of_operand {s : State} {field ea : Field} (h : effectiveOperand s field = some ea) :
    exec (.mm field) s =
      .next { s with
        ir := s.irFor 0x9 field, pc := s.pcAfter 0x9, ind := false
        mem := s.mem.write (busAddr s.bank (zext16 ea)).toNat s.acc
        diag := s.diag ++ boundaryCheck s.vmState (busAddr s.bank (zext16 ea)) } := by
  rw [exec_eq_commit, instrEffect, storeEffect_eq, effectiveOperand_fetched, h, fetched_eq]
  rfl

/-- An MM whose pointer would lie past the bank takes the fault, and nothing is stored (R81, R110). -/
theorem exec_mm_of_no_operand {s : State} {field : Field} (h : effectiveOperand s field = none) :
    exec (.mm field) s = .next (takeFault .bankOverrun s) := by
  rw [exec_eq_commit, instrEffect, storeEffect_eq, effectiveOperand_fetched, h]
  rfl

/-- Settles O24: MM writes one byte, at the operand that the resolution finds, and a write changes the read of its own
address only. -/
theorem mmRule : Obligations.MmRule := by
  unfold Obligations.MmRule
  refine fun s field => ⟨encodesW2_of_width rfl, fun ea u hresolve => ?_, exec_mm_of_no_operand⟩
  have hop : effectiveOperand s field = some ea := effectiveOperand_of_resolve_fetched hresolve
  exact ⟨hop, _, exec_mm_of_operand hop, fun a => s.mem.read_write _ a s.acc, rfl⟩

end Sys2Proof.Machine

namespace Sys2Proof.Machine

/-! ### The return slot -/

/-- The slot at `field` lies in the bank with both its bytes unless `field` is the last offset (R45, R95). -/
theorem succ_le_lastOffset_iff (field : Field) : field.toNat + 1 ≤ Config.lastOffset ↔ field ≠ 0xFFF := by
  have hlt := field.isLt
  rw [Ne, ← BitVec.toNat_inj, show (0xFFF : Field).toNat = 0xFFF from rfl, Config.lastOffset]
  omega

/-- The slot's second byte is the next cell of the bank (R37, R40). -/
theorem busAddr_zext16_succ_toNat (b : Nibble) {field : Field} (hfield : field ≠ 0xFFF) :
    (busAddr b (zext16 field + 1)).toNat = Config.bankSize * b.toNat + (field.toNat + 1) := by
  have hle : (zext16 field).toNat + 1 ≤ Config.lastOffset := by
    rw [zext16_toNat]
    exact (succ_le_lastOffset_iff field).2 hfield
  rw [busAddr_toNat _ _ (by rwa [toNat_succ _ hle]), toNat_succ _ hle, zext16_toNat]

/-- Two writes to different cells do not disturb each other (R41, R44). -/
theorem Memory.read_write_write (m : Memory) {a b : Nat} (hab : a ≠ b) (v w : Byte) (c : Nat) :
    ((m.write a v).write b w).read c = if c = a then v else if c = b then w else m.read c := by
  rw [Memory.read_write, Memory.read_write]
  by_cases hca : c = a
  · rw [if_neg (hca ▸ hab), if_pos hca, if_pos hca]
  · rw [if_neg hca, if_neg hca]

/-- The bytes that SC leaves: the return address in the slot, high byte first, every other byte as it was (R40, R95). -/
theorem read_returnSlot (m : Memory) (b : Nibble) {field : Field} (hfield : field ≠ 0xFFF) (v w : Byte) (a : Nat) :
    ((m.write (busAddr b (zext16 field)).toNat v).write (busAddr b (zext16 field + 1)).toNat w).read a =
      if a = (busAddr b (zext16 field)).toNat then v
      else if a = (busAddr b (zext16 field + 1)).toNat then w
      else m.read a := by
  refine m.read_write_write ?_ v w a
  rw [busAddr_zext16_toNat, busAddr_zext16_succ_toNat b hfield]
  omega

/-! ### SC: the whole outcome -/

/-- An SC whose slot lies in the bank stores the return address there, gives the boundary warnings in the order of the
bytes, and goes past the slot; `IND` stays (R48, R80, R95). -/
theorem exec_sc_of_slot_in_bank {s : State} {field : Field} (hfield : field ≠ 0xFFF) :
    exec (.sc field) s =
      .next { s with
        ir := s.irFor 0xA field, pc := zext16 field + 2
        mem := (s.mem.write (busAddr s.bank (zext16 field)).toNat (highByte (s.pcAfter 0xA))).write
          (busAddr s.bank (zext16 field + 1)).toNat (lowByte (s.pcAfter 0xA))
        diag := s.diag ++ boundaryCheck s.vmState (busAddr s.bank (zext16 field)) ++
          boundaryCheck s.vmState (busAddr s.bank (zext16 field + 1)) } := by
  rw [exec_eq_commit, instrEffect, callEffect_eq, if_pos ((succ_le_lastOffset_iff field).2 hfield), fetched_eq,
    List.append_assoc]
  rfl

/-- An SC whose slot would lie past the bank takes the fault, and no byte is stored (R46, R95). -/
theorem exec_sc_of_slot_past_bank {s : State} {field : Field} (hfield : field = 0xFFF) :
    exec (.sc field) s = .next (takeFault .bankOverrun s) := by
  rw [exec_eq_commit, instrEffect, callEffect_eq, if_neg fun hle => (succ_le_lastOffset_iff field).1 hle hfield]
  rfl

/-- Settles O25: SC stores two bytes in different cells, and they are the cells of the slot. -/
theorem scRule : Obligations.ScRule := by
  unfold Obligations.ScRule
  exact fun s field => ⟨encodesW2_of_width rfl,
    fun hfield => ⟨_, exec_sc_of_slot_in_bank hfield, read_returnSlot s.mem s.bank hfield _ _, rfl⟩,
    exec_sc_of_slot_past_bank⟩

/-! ### The return convention -/

/-- After an SC the slot is a pointer to the low 12 bits of the return address (R81, R95, R96). -/
theorem low12_returnSlot_of_exec_sc {s t : State} {slot : Field} (hslot : slot ≠ 0xFFF)
    (h : exec (.sc slot) s = .next t) :
    low12 (wordOf (t.byteAt slot.toNat) (t.byteAt (slot.toNat + 1))) = low12 (s.pcAfter 0xA) := by
  rw [exec_sc_of_slot_in_bank hslot] at h
  cases h
  have hne : Config.bankSize * s.bank.toNat + (slot.toNat + 1) ≠ Config.bankSize * s.bank.toNat + slot.toNat := by
    omega
  rw [State.byteAt, State.byteAt, read_returnSlot _ _ hslot, read_returnSlot _ _ hslot, busAddr_zext16_toNat,
    busAddr_zext16_succ_toNat _ hslot, if_pos rfl, if_neg hne, if_pos rfl, wordOf_highByte_lowByte]

/-- A JP that finds its operand goes there in direct mode, and `ACC` stays (R81, R84). -/
theorem exec_jp_of_operand {s : State} {field ea : Field} (h : effectiveOperand s field = some ea) :
    ∃ t, exec (.jp field) s = .next t ∧ t.pc = ea.setWidth 16 ∧ t.ind = false ∧ t.acc = s.acc :=
  ⟨_, exec_jump_of_operand (P := True) rfl h (iff_true_intro rfl), rfl, rfl, rfl⟩

/-- CN 2 and a JP go through the pointer at the JP's field, and leave indirect mode again (R80, R81, R87). -/
theorem exec_cn_two_jp (s : State) {field : Field} (hfield : field ≠ 0xFFF) :
    ∃ t u, exec (.cn 2) s = .next t ∧ exec (.jp field) t = .next u ∧
      u.pc = (low12 (wordOf (s.byteAt field.toNat) (s.byteAt (field.toNat + 1)))).setWidth 16 ∧
      u.ind = false ∧ u.acc = s.acc := by
  have hset : ((s.fetched (.cn 2)).setInd true).ind = true := State.setInd_ind _ _
  obtain ⟨u, hjump, hpc, hind, hacc⟩ := exec_jp_of_operand (effectiveOperand_indirect hset hfield)
  exact ⟨_, u, exec_cn 2 s, hjump, hpc, hind, hacc⟩

/-- Settles O26: the return goes through the slot, whose bytes are still the ones SC wrote. -/
theorem callAndReturn : Obligations.CallAndReturn := by
  unfold Obligations.CallAndReturn
  intro s t u slot hslot hcall _ hhigh hlow
  rw [← low12_returnSlot_of_exec_sc hslot hcall, ← hhigh, ← hlow]
  exact exec_cn_two_jp u hslot

end Sys2Proof.Machine

namespace Sys2Proof.Machine

/-! ### OS -/

theorem osHaltEffect_of_loading {s : State} (h : s.vmState = .loading) : osHaltEffect s = { s with vmState := .idle } :=
  if_pos h

theorem osHaltEffect_of_running {s : State} (h : s.vmState = .running) : osHaltEffect s = s.halt .osHalt :=
  if_neg (by rw [h]; exact nofun)

theorem systemCallEffect_dump (s : State) :
    systemCallEffect 0x000 s = s.report [.dump (sval s.acc) s.acc.toNat s.pc] := rfl

theorem systemCallEffect_halt (s : State) : systemCallEffect 0x00F s = osHaltEffect s := rfl

/-- OS with an operand that names neither of its cases warns; all 12 bits are compared (R97). -/
theorem systemCallEffect_of_ne {field : Field} (hdump : field ≠ 0x000) (hhalt : field ≠ 0x00F) (s : State) :
    systemCallEffect field s = s.warn (.osUnimplemented field) := by
  unfold systemCallEffect
  split
  case h_1 h => exact absurd (BitVec.eq_of_toNat_eq h) hdump
  case h_2 h => exact absurd (BitVec.eq_of_toNat_eq h) hhalt
  case h_3 => rfl

/-- OS acts on the state whose `IR` holds it and whose `PC` is past it (R78, R97). -/
theorem exec_os_eq (field : Field) (s : State) :
    exec (.os field) s = .next (systemCallEffect field { s with ir := s.irFor 0xB field, pc := s.pcAfter 0xB }) := by
  rw [exec_eq_commit, instrEffect, fetched_eq]
  rfl

/-- Settles O27, case by case of the effect on the fetched state, in which `VMSTATE` is the one before the fetch. -/
theorem osRule : Obligations.OsRule := by
  unfold Obligations.OsRule
  refine fun s field => ⟨encodesW2_of_width rfl, ?dump, ?endSegment, ?halt, ?warn⟩
  case dump =>
    rintro rfl
    rw [exec_os_eq, systemCallEffect_dump, State.report, sval_eq_toInt]
  case endSegment =>
    rintro rfl hloading
    rw [exec_os_eq, systemCallEffect_halt]
    exact congrArg Host.Outcome.next (osHaltEffect_of_loading hloading)
  case halt =>
    rintro rfl hrunning
    rw [exec_os_eq, systemCallEffect_halt]
    exact congrArg Host.Outcome.next (osHaltEffect_of_running hrunning)
  case warn =>
    intro hdump hhalt
    rw [exec_os_eq, systemCallEffect_of_ne hdump hhalt, State.warn, State.report]

/-! ### A stream after a read -/

theorem InStream.advanced_of_next {st : InStream} {b : Byte} (h : st.next = some b) :
    st.advanced = ⟨st.bytes, st.pos + 1⟩ := by
  obtain ⟨hpos, _⟩ := List.getElem?_eq_some_iff.1 h
  rw [InStream.advanced, if_pos hpos]

/-- At the end of a stream a read leaves the position (R99). -/
theorem InStream.advanced_of_end {st : InStream} (h : st.next = none) : st.advanced = st := by
  have hpos : ¬ st.pos < st.bytes.length := Nat.not_lt.2 (List.getElem?_eq_none_iff.1 h)
  rw [InStream.advanced, if_neg hpos]

theorem State.setIn_self {s : State} {d : SlotId} {x : Option InStream} (h : (s.slots.get d).inp = x) :
    s.setIn d x = s := by
  subst h
  exact congrArg s.setSlots (Slots.set_get_self s.slots d)

/-! ### The effect of IO, by its types -/

section IoEffect

variable {s : State} {d : SlotId}

/-- A read with a byte left takes it and advances the stream (R98, R99). -/
theorem ioEffect_read_of_next {st : InStream} {b : Byte} (hin : (s.slots.get d).inp = some st)
    (hb : st.next = some b) :
    ioEffect .read d s = .ok ((s.setIn d (some ⟨st.bytes, st.pos + 1⟩)).setAcc b) := by
  rw [ioEffect, slotRead_eq, hin, ← InStream.advanced_of_next hb]
  simp only [hb, Option.getD_some]

/-- A read at the end of its stream changes nothing (R98, R99). -/
theorem ioEffect_read_of_end {st : InStream} (hin : (s.slots.get d).inp = some st) (hend : st.next = none) :
    ioEffect .read d s = .ok s := by
  rw [ioEffect, slotRead_eq, hin]
  simp only [hend, InStream.advanced_of_end hend, Option.getD_none, State.setIn_self hin]
  rfl

theorem ioEffect_read_of_unbound (hin : (s.slots.get d).inp = none) : ioEffect .read d s = .error .deviceAbsent := by
  rw [ioEffect, slotRead_eq, hin]

theorem ioEffect_write_of_bound {sink : List Byte} (hout : (s.slots.get d).out = some sink) :
    ioEffect .write d s = .ok (s.setOut d (some (sink ++ [s.acc]))) := by
  rw [ioEffect, slotWrite_eq, hout]

theorem ioEffect_write_of_unbound (hout : (s.slots.get d).out = none) :
    ioEffect .write d s = .error .deviceAbsent := by
  rw [ioEffect, slotWrite_eq, hout]

end IoEffect

/-! ### IO -/

/-- The byte of an IO without upper operand bits: type over slot in its low half (R66). -/
theorem encodesW1_io (op : IoOp) (d : SlotId) : encodesW1 (.io op ⟨d, 0⟩) 0xC (ioOpBits op ++ slotBits d) := by
  have h : encodesW1 (.io op ⟨d, 0⟩) 0xC ((0x00#8 ++ (ioOpBits op ++ slotBits d)).setWidth 4) :=
    encodesW1_of_width rfl
  rwa [BitVec.setWidth_append_eq_right] at h

/-- The state in which the effect of an IO without upper operand bits begins: `IR` holds it and `PC` is past it (R78). -/
def State.fetchedIo (s : State) (op : IoOp) (d : SlotId) : State :=
  { s with ir := s.irFor 0xC (0x00#8 ++ (ioOpBits op ++ slotBits d)), pc := s.pcAfter 0xC }

theorem fetched_io_eq_fetchedIo (s : State) (op : IoOp) (d : SlotId) :
    s.fetched (.io op ⟨d, 0⟩) = s.fetchedIo op d :=
  fetched_eq _ s

theorem exec_io_of_ok {op : IoOp} {d : SlotId} {s t : State} (h : ioEffect op d (s.fetchedIo op d) = .ok t) :
    exec (.io op ⟨d, 0⟩) s = .next t := by
  rw [exec_eq_commit, instrEffect, fetched_io_eq_fetchedIo, h, commit]

/-- A fault that IO raises is taken on the state before its fetch (R83). -/
theorem exec_io_of_error {op : IoOp} {d : SlotId} {s : State} {c : FaultCause}
    (h : ioEffect op d (s.fetchedIo op d) = .error c) : exec (.io op ⟨d, 0⟩) s = .next (takeFault c s) := by
  rw [exec_eq_commit, instrEffect, fetched_io_eq_fetchedIo, h, commit]

/-- Settles O28, type by type of the effect on the fetched state, in which the slots and `ACC` are those before the
fetch. -/
theorem ioRule : Obligations.IoRule := by
  unfold Obligations.IoRule
  refine fun s d => ⟨encodesW1_io .read d, encodesW1_io .write d, encodesW1_io .enableInterrupt d,
    encodesW1_io .disableInterrupt d, ?readNext, ?readEnd, ?readUnbound, ?writeBound, ?writeUnbound, ?enable, ?disable⟩
  case readNext => exact fun st b hin hb => exec_io_of_ok (ioEffect_read_of_next hin hb)
  case readEnd => exact fun st hin hend => exec_io_of_ok (ioEffect_read_of_end hin hend)
  case readUnbound => exact fun hin => exec_io_of_error (ioEffect_read_of_unbound hin)
  case writeBound => exact fun sink hout => exec_io_of_ok (ioEffect_write_of_bound hout)
  case writeUnbound => exact fun hout => exec_io_of_error (ioEffect_write_of_unbound hout)
  case enable => exact exec_io_of_ok rfl
  case disable => exact exec_io_of_ok rfl

end Sys2Proof.Machine

namespace Sys2Proof.Machine

/-! ### Loading and running -/

/-- The state in another `VMSTATE`. -/
def State.inMode (s : State) (v : VmState) : State := { s with vmState := v }

theorem State.fetched_inMode (s : State) (v : VmState) (i : Instr) :
    (s.inMode v).fetched i = (s.fetched i).inMode v := rfl

/-- `u` is what `t` is, the trace and the mode apart, where `t` comes from `running` and `u` from `loading`: both go on
in the mode they came from, or both halt (R115). -/
structure SameButMode (t u : State) : Prop where
  state : { u with diag := [], vmState := t.vmState } = { t with diag := [] }
  mode : t.vmState = .running ∧ u.vmState = .loading ∨ t.vmState = .halted ∧ u.vmState = .halted

theorem SameButMode.inMode (s : State) : SameButMode (s.inMode .running) (s.inMode .loading) := ⟨rfl, .inl ⟨rfl, rfl⟩⟩

/-- The trace is no part of the comparison: the events of each mode are its own (R12, R48). -/
theorem SameButMode.report {t u : State} (h : SameButMode t u) (e e' : List DiagEvent) :
    SameButMode (t.report e) (u.report e') := ⟨h.state, h.mode⟩

/-- Effects in `running` and in `loading` that agree: the same fault, or the same state. -/
inductive EffectsAgree : Except FaultCause State → Except FaultCause State → Prop
  | ok {t u : State} (h : SameButMode t u) : EffectsAgree (.ok t) (.ok u)
  | error (c : FaultCause) : EffectsAgree (.error c) (.error c)

/-- An effect that does the same in `loading` and in `running` (R115). -/
def ModeBlind (f : State → Except FaultCause State) : Prop :=
  ∀ s : State, EffectsAgree (f (s.inMode .running)) (f (s.inMode .loading))

/-- An effect that neither reads nor writes `VMSTATE`. -/
theorem ModeBlind.of_commutes {f : State → Except FaultCause State}
    (h : ∀ s v, f (s.inMode v) = (f s).map (·.inMode v)) : ModeBlind f := by
  intro s
  rw [h, h]
  cases f s with
  | error c => exact .error c
  | ok t => exact .ok (.inMode t)

theorem jumpEffect_modeBlind {taken : State → Bool} (ht : ∀ s v, taken (State.inMode s v) = taken s) (field : Field) :
    ModeBlind (jumpEffect taken field) := by
  refine .of_commutes fun s v => ?_
  have hop : effectiveOperand (s.inMode v) field = effectiveOperand s field := rfl
  have htaken : taken ((s.inMode v).setInd false) = taken (s.setInd false) := ht (s.setInd false) v
  rw [jumpEffect_eq, jumpEffect_eq, hop, htaken]
  cases effectiveOperand s field with
  | none => rfl
  | some ea => cases taken (s.setInd false) <;> rfl

theorem aluEffect_modeBlind (f : Int → Nat → Except FaultCause Int) (field : Field) :
    ModeBlind (aluEffect f field) := by
  refine .of_commutes fun s v => ?_
  have hval : effectiveValue (s.inMode v) field = effectiveValue s field := rfl
  have hacc : (s.inMode v).acc = s.acc := rfl
  rw [aluEffect_eq, aluEffect_eq, hval, hacc]
  cases effectiveValue s field with
  | none => rfl
  | some n =>
    simp only
    cases f (sval s.acc) n <;> rfl

theorem loadEffect_modeBlind (field : Field) : ModeBlind (loadEffect field) := by
  refine .of_commutes fun s v => ?_
  have hval : effectiveValue (s.inMode v) field = effectiveValue s field := rfl
  rw [loadEffect_eq, loadEffect_eq, hval]
  cases effectiveValue s field <;> rfl

/-- MM reads `VMSTATE` for its warning alone (R48). -/
theorem storeEffect_modeBlind (field : Field) : ModeBlind (storeEffect field) := by
  intro s
  have hop : ∀ v, effectiveOperand (s.inMode v) field = effectiveOperand s field := fun _ => rfl
  rw [storeEffect_eq, storeEffect_eq, hop, hop]
  cases effectiveOperand s field with
  | none => exact .error _
  | some ea => exact .ok ((SameButMode.inMode ((s.setInd false).setMem _)).report _ _)

/-- SC reads `VMSTATE` for its warnings alone (R48). -/
theorem callEffect_modeBlind (field : Field) : ModeBlind (callEffect field) := by
  intro s
  rw [callEffect_eq, callEffect_eq]
  split
  · exact .ok ((SameButMode.inMode ((s.setMem _).setPc _)).report _ _)
  · exact .error _

/-- CN 0 halts with the same cause in both modes (R87). -/
theorem controlEffect_modeBlind (sub : Field) : ModeBlind fun s => .ok (controlEffect sub s) := by
  intro s
  unfold controlEffect
  split
  · exact .ok ⟨rfl, .inr ⟨rfl, rfl⟩⟩
  · exact .ok (.inMode s)
  · exact .ok (.inMode (s.setInd true))
  · exact .ok ((SameButMode.inMode s).report _ _)

theorem systemCallEffect_modeBlind {field : Field} (h : field ≠ 0x00F) :
    ModeBlind fun s => .ok (systemCallEffect field s) := by
  intro s
  by_cases hdump : field = 0x000
  · subst hdump
    exact .ok ((SameButMode.inMode s).report _ _)
  · simp only [systemCallEffect_of_ne hdump h]
    exact .ok ((SameButMode.inMode s).report _ _)

theorem ioEffect_modeBlind (op : IoOp) (slot : SlotId) : ModeBlind (ioEffect op slot) := by
  refine .of_commutes fun s v => ?_
  have hslots : (s.inMode v).slots = s.slots := rfl
  cases op with
  | read =>
    simp only [ioEffect, slotRead_eq, hslots]
    cases (s.slots.get slot).inp <;> rfl
  | write =>
    simp only [ioEffect, slotWrite_eq, hslots]
    cases (s.slots.get slot).out <;> rfl
  | enableInterrupt => rfl
  | disableInterrupt => rfl

/-- There is one privilege mode (R115). -/
theorem instrEffect_modeBlind {i : Instr} (hi : i ≠ .os 0x00F) : ModeBlind (instrEffect i) := by
  intro s
  cases i <;> simp only [instrEffect, State.fetched_inMode]
  case jp f => exact jumpEffect_modeBlind (fun _ _ => rfl) f _
  case jz f => exact jumpEffect_modeBlind (fun _ _ => rfl) f _
  case jn f => exact jumpEffect_modeBlind (fun _ _ => rfl) f _
  case cn sub => exact controlEffect_modeBlind sub _
  case add f => exact aluEffect_modeBlind _ f _
  case sub f => exact aluEffect_modeBlind _ f _
  case mul f => exact aluEffect_modeBlind _ f _
  case div f => exact aluEffect_modeBlind _ f _
  case ld f => exact loadEffect_modeBlind f _
  case mm f => exact storeEffect_modeBlind f _
  case sc f => exact callEffect_modeBlind f _
  case os f => exact systemCallEffect_modeBlind (fun hf => hi (congrArg Instr.os hf)) _
  case io op d => exact ioEffect_modeBlind op d.id _

/-- What is committed agrees where the effects do; a fault is taken from states that differ in the mode alone (R83). -/
theorem EffectsAgree.commit {r r' : Except FaultCause State} (h : EffectsAgree r r') (s : State) {t : State}
    (ht : Machine.commit (s.inMode .running) r = .next t) :
    ∃ u, Machine.commit (s.inMode .loading) r' = .next u ∧ SameButMode t u := by
  cases h with
  | ok h => cases ht; exact ⟨_, rfl, h⟩
  | error c => cases ht; exact ⟨_, rfl, rfl, .inr ⟨rfl, rfl⟩⟩

/-- Settles O42: the effect of every instruction but OS 0x00F is blind to the mode. -/
theorem loadingAndRunningAgree : Obligations.LoadingAndRunningAgree := by
  unfold Obligations.LoadingAndRunningAgree
  intro i s t hi h
  have hrun : commit (s.inMode .running) (instrEffect i (s.inMode .running)) = .next t := by
    rw [← exec_eq_commit]
    exact h
  obtain ⟨u, hu, hsame⟩ := (instrEffect_modeBlind hi s).commit s hrun
  rw [← exec_eq_commit] at hu
  exact ⟨u, hu, hsame.state, hsame.mode⟩

/-! ### `loading` is entered by a segment's start alone -/

/-- A completion stays in `loading` or does not come into it (R31). -/
theorem Completes.vmState_ne_loading {u t : State} {i : Instr} (h : Completes u i t) (hv : u.vmState = .running) :
    t.vmState ≠ .loading := by
  intro ht
  have htable := h.vmTransition
  rw [hv, ht] at htable
  cases htable

theorem Moves.of_enters_loading {s t : State} (h : Moves s t) (hs : s.vmState ≠ .loading) (ht : t.vmState = .loading) :
    ∃ seg rest, t = Machine.startSegment s seg rest := by
  cases h with
  | startSegment seg rest => exact ⟨seg, rest, rfl⟩
  | complete hv h => exact absurd ht (h.vmState_ne_loading (hv.resolve_left hs))
  | stay | bindIn | bindOut | endLoad => exact absurd ht hs
  | fault | cancel | run => cases ht
  | endCommand => exact absurd ((leaveLoop_vmState s).symm.trans ht) hs

/-- Settles O38: the one move into `loading` is the start of a segment. -/
theorem loadingIsEnteredByLoad : Obligations.LoadingIsEnteredByLoad := by
  unfold Obligations.LoadingIsEnteredByLoad
  intro s t h hs ht
  obtain ⟨rest, _, rfl⟩ | hmoves := step_moves h
  · cases ht
  · obtain ⟨seg, rest, rfl⟩ := hmoves.of_enters_loading hs ht
    exact ⟨rfl, rfl, seg, rest, rfl, rfl⟩

/-! ### No step is refused -/

theorem machineStep_ne_refused (s : State) (r : Refusal) : machineStep s ≠ .refused r := by
  obtain ⟨t, hcore⟩ := coreStep_answers_next s
  unfold machineStep
  cases s.vmState with
  | loading | running => rw [hcore]; nofun
  | idle | halted => cases sequencerStep s <;> nofun

theorem step_ne_refused (s : State) (r : Refusal) : step s ≠ .refused r := by
  by_cases hin : ∃ c rest, s.hostIn = some c :: rest
  · obtain ⟨c, rest, hc⟩ := hin
    rw [step_of_hostInput hc]
    nofun
  · rw [step_of_noHostInput (by simpa using hin)]
    split
    · nofun
    · exact machineStep_ne_refused s.popped r

/-- Settles O40: the commit of an effect is a next state, and no branch of the step refuses. -/
theorem noInstructionStops : Obligations.NoInstructionStops := by
  unfold Obligations.NoInstructionStops
  exact ⟨exec_answers_next, step_ne_refused⟩

/-! ### Host commands -/

theorem acceptsCommand_iff {s : State} :
    acceptsCommand s = true ↔ s.vmState = .idle ∧ s.command.inProgress = false := by
  simp [acceptsCommand]

/-- A host input is the whole step, on the state with that input taken off the queue (R114). -/
theorem step_of_hostCommand {s : State} {c : HostCommand} {rest : List (Option HostCommand)}
    (h : s.hostIn = some c :: rest) : step s = .next (hostCommand c { s with hostIn := rest }) := by
  rw [step_of_hostInput h, State.popped_of_cons h]

/-- Settles O46: the reset is one host input, and it numbers the console's binding anew. -/
theorem hostResetRule : Obligations.HostResetRule := by
  unfold Obligations.HostResetRule
  intro s rest hin
  exact ⟨s.freeCount + 1, step_of_hostCommand hin⟩

/-- Settles O48: the command is accepted, and goes on with its first segment or ends. -/
theorem loadRule : Obligations.LoadRule := by
  unfold Obligations.LoadRule
  intro s rest segs hin hv hc
  have haccepts : acceptsCommand { s with hostIn := rest } = true := acceptsCommand_iff.2 ⟨hv, hc⟩
  have hstep : step s = .next (nextSegment { s with hostIn := rest } segs) := by
    rw [step_of_hostCommand hin, hostCommand, hostLoad, if_pos haccepts]
  constructor
  · rintro rfl
    exact hstep
  · rintro seg more rfl
    exact hstep

/-- Settles O50: both commands ask `acceptsCommand` first. -/
theorem refusedCommandsChangeNothing : Obligations.RefusedCommandsChangeNothing := by
  unfold Obligations.RefusedCommandsChangeNothing
  intro s c rest hin hc hbusy
  have hrefuses : ¬ acceptsCommand { s with hostIn := rest } = true := by
    rw [acceptsCommand_iff]
    rintro ⟨hv, hp⟩
    obtain hv' | hp' := hbusy
    · exact hv' hv
    · exact Bool.false_ne_true (hp.symm.trans hp')
  rw [step_of_hostCommand hin]
  obtain rfl | ⟨segs, rfl⟩ := hc
  · rw [hostCommand, hostRun, if_neg hrefuses]
  · rw [hostCommand, hostLoad, if_neg hrefuses]

/-! ### `cancel` -/

theorem leaveLoop_of_load {s : State} {left : List (List Byte)} (h : s.command = .load left) :
    leaveLoop s = s.setIn .slot1 none := by
  rw [leaveLoop, h]

theorem leaveLoop_of_not_load {s : State} (h : ∀ left, s.command ≠ .load left) : leaveLoop s = s :=
  (leaveLoop_cases s).resolve_right fun ⟨⟨left, hc⟩, _⟩ => h left hc

theorem hostCancel_of_not_halted {s : State} (hv : s.vmState ≠ .halted) : hostCancel s = s.halt .cancelled :=
  if_neg hv

/-- After CN 0 a `cancel` ends the command, as the loop it left would (R112, R114). -/
theorem hostCancel_of_pending {s : State} (hv : s.vmState = .halted) (hcause : s.haltCause = .cnHalt)
    (hc : s.command.inProgress = true) : hostCancel s = (leaveLoop s).setCommand (.ended .cancelled) := by
  rw [hostCancel, if_pos hv, if_pos ⟨hcause, hc⟩]

theorem hostCancel_of_pending_load {s : State} (hv : s.vmState = .halted) (hcause : s.haltCause = .cnHalt)
    {left : List (List Byte)} (hc : s.command = .load left) :
    hostCancel s = (s.setIn .slot1 none).setCommand (.ended .cancelled) := by
  rw [hostCancel_of_pending hv hcause (by rw [hc]; rfl), leaveLoop_of_load hc]

/-- Once the sequencer has seen the halt, or for a `run`, no stream is left to unbind (R124). -/
theorem hostCancel_of_pending_run_or_held {s : State} (hv : s.vmState = .halted) (hcause : s.haltCause = .cnHalt)
    (hc : s.command = .run ∨ s.command = .held) : hostCancel s = s.setCommand (.ended .cancelled) := by
  have hprogress : s.command.inProgress = true := by obtain hc | hc := hc <;> rw [hc] <;> rfl
  have hnot : ∀ left, s.command ≠ .load left := by obtain hc | hc := hc <;> rw [hc] <;> nofun
  rw [hostCancel_of_pending hv hcause hprogress, leaveLoop_of_not_load hnot]

theorem hostCancel_of_nothing_pending {s : State} (hv : s.vmState = .halted)
    (h : s.haltCause ≠ .cnHalt ∨ s.command.inProgress = false) : hostCancel s = s := by
  have hno : ¬ (s.haltCause = .cnHalt ∧ s.command.inProgress = true) := by
    rintro ⟨hcause, hc⟩
    obtain hcause' | hc' := h
    · exact hcause' hcause
    · exact Bool.false_ne_true (hc'.symm.trans hc)
  rw [hostCancel, if_pos hv, if_neg hno]

/-- Settles O51, branch by branch of `hostCancel`. -/
theorem cancelRule : Obligations.CancelRule := by
  unfold Obligations.CancelRule
  intro s rest hin
  rw [step_of_hostCommand hin, hostCommand]
  refine ⟨fun hv => ?active, fun hv hcause hc => ?pending, fun left hv hcause hc => ?pendingLoad, fun hv h => ?nothing⟩
  case active => exact congrArg _ (hostCancel_of_not_halted hv)
  case pending => exact congrArg _ (hostCancel_of_pending_run_or_held hv hcause hc)
  case pendingLoad => exact congrArg _ (hostCancel_of_pending_load hv hcause hc)
  case nothing => exact congrArg _ (hostCancel_of_nothing_pending hv h)

/-! ### The sequencer's own steps -/

/-- In `idle` and `halted` the block's step is the sequencer's, when no host input is due (R77). -/
theorem step_of_sequencerStep {s t : State} (hin : s.hostIn = []) (hv : s.vmState = .idle ∨ s.vmState = .halted)
    (h : sequencerStep s = some t) : step s = .next t := by
  rw [step_of_noHostInput (by simp [hin]), if_neg (by simp [hin]), State.popped_of_nil hin, machineStep]
  obtain hv | hv := hv <;> simp only [hv, h]

/-- Settles O49: with a `load` in progress, `idle` is the end of a segment. -/
theorem segmentEndRule : Obligations.SegmentEndRule := by
  unfold Obligations.SegmentEndRule
  intro s left hin hv hc
  have hstep : step s = .next (segmentDone s left) :=
    step_of_sequencerStep hin (.inl hv) (by rw [sequencerStep, hv, hc])
  constructor
  · rintro rfl
    exact hstep
  · rintro seg more rfl
    exact hstep

theorem step_of_command_halted {s : State} (hin : s.hostIn = []) (hv : s.vmState = .halted)
    (hc : s.command = .run ∨ ∃ left, s.command = .load left) : step s = .next (commandHalted s) := by
  refine step_of_sequencerStep hin (.inr hv) ?_
  obtain hc | ⟨left, hc⟩ := hc <;> rw [sequencerStep, hv, hc]

/-- Settles O52: the halt cause decides the end, and only a `load` has a stream to unbind. -/
theorem commandEndRule : Obligations.CommandEndRule := by
  unfold Obligations.CommandEndRule
  intro s after hin hv hend
  have hafter : commandAfterHalt s.haltCause = after := by
    obtain ⟨hcause, rfl⟩ | ⟨hcause, rfl⟩ | ⟨hcause, rfl⟩ | ⟨hcause, rfl⟩ := hend <;> rw [hcause] <;> rfl
  constructor
  · intro hc
    rw [step_of_command_halted hin hv (.inl hc), commandHalted, hafter, leaveLoop_of_not_load (by rw [hc]; nofun)]
    rfl
  · intro left hc
    rw [step_of_command_halted hin hv (.inr ⟨left, hc⟩), commandHalted, hafter, leaveLoop_of_load hc]
    rfl

end Sys2Proof.Machine

namespace Sys2Proof.Machine

/-! ### Object blocks -/

/-- A payload of the length its block announces is read whole, then its checksum (R126). -/
theorem readBlock_of_length {hi lo len : Byte} {payload : List Byte} (h : payload.length = len.toNat) (c : Byte)
    (after : List Byte) :
    readBlock (hi :: lo :: len :: (payload ++ c :: after)) = some (⟨wordOf hi lo, payload⟩, c, after) := by
  simp only [readBlock, ← h, List.drop_left, List.take_left]

/-- Settles O56: a payload of at most 255 bytes has its length in the length byte. -/
theorem objectBlockReadsBack : Obligations.ObjectBlockReadsBack := by
  unfold Obligations.ObjectBlockReadsBack
  intro b rest hlen
  have hbyte : b.payload.length = (BitVec.ofNat 8 b.payload.length).toNat := by
    rw [BitVec.toNat_ofNat]
    omega
  have hstream : b.bytes ++ rest =
      highByte b.start :: lowByte b.start :: BitVec.ofNat 8 b.payload.length ::
        (b.payload ++ checksum b.payload :: rest) := by
    simp [ObjectBlock.bytes]
  rw [hstream, readBlock_of_length hbyte, wordOf_highByte_lowByte]

/-! ### Splitting -/

theorem splitWithin_flatMap_payload {n : Nat} (start : Word) {bytes : List Byte} (h : bytes.length ≤ n) :
    (splitWithin n start bytes).flatMap (fun b => b.payload) = bytes := by
  induction n generalizing start bytes with
  | zero =>
    obtain rfl := List.length_eq_zero_iff.1 (Nat.le_zero.1 h)
    rfl
  | succ n ih =>
    cases bytes with
    | nil => rfl
    | cons x xs =>
      have hdrop : ((x :: xs).drop 255).length ≤ n := by
        rw [List.length_drop]
        omega
      rw [splitWithin, List.flatMap_cons, ih _ hdrop, List.take_append_drop]

theorem splitWithin_payload_length {n : Nat} {start : Word} {bytes : List Byte} {b : ObjectBlock}
    (h : b ∈ splitWithin n start bytes) : 0 < b.payload.length ∧ b.payload.length ≤ 255 := by
  induction n generalizing start bytes with
  | zero => cases h
  | succ n ih =>
    cases bytes with
    | nil => cases h
    | cons x xs =>
      rw [splitWithin, List.mem_cons] at h
      obtain rfl | h := h
      · simp only [List.length_take, List.length_cons]
        omega
      · exact ih h

/-- A first chunk starts at the address given, and there is none without a byte to put in it. -/
theorem splitWithin_head {n : Nat} {start : Word} {bytes : List Byte} {b : ObjectBlock}
    (h : (splitWithin n start bytes).head? = some b) : b.start = start ∧ 0 < bytes.length := by
  cases n with
  | zero => cases h
  | succ n =>
    cases bytes with
    | nil => cases h
    | cons x xs => cases h; exact ⟨rfl, Nat.succ_pos _⟩

/-- A chunk with another after it has 255 bytes, since bytes are left (R127). -/
theorem splitWithin_isChain (n : Nat) (start : Word) (bytes : List Byte) :
    (splitWithin n start bytes).IsChain fun b c =>
      b.payload.length = 255 ∧ c.start = b.start + BitVec.ofNat 16 b.payload.length := by
  induction n generalizing start bytes with
  | zero => exact .nil
  | succ n ih =>
    cases bytes with
    | nil => exact .nil
    | cons x xs =>
      rw [splitWithin, List.isChain_cons]
      refine ⟨fun c hc => ?_, ih _ _⟩
      obtain ⟨hstart, hleft⟩ := splitWithin_head hc
      refine ⟨?_, hstart⟩
      rw [List.length_drop] at hleft
      rw [List.length_take]
      omega

/-- Settles O57: the length of the byte sequence bounds the number of its chunks. -/
theorem splittingIsContiguous : Obligations.SplittingIsContiguous := by
  unfold Obligations.SplittingIsContiguous
  intro start bytes
  exact ⟨splitWithin_flatMap_payload start le_rfl, fun _ hb => splitWithin_payload_length hb,
    fun _ hb => (splitWithin_head hb).1, splitWithin_isChain _ start bytes⟩

/-! ### The checksum -/

/-- A checksum goes on from a value as it goes on from the seed (R128). -/
theorem foldl_xor_eq_checksum (c : Byte) (q : List Byte) :
    q.foldl (fun c p => c ^^^ p) c = c ^^^ checksum q ^^^ 0xFF := by
  induction q using List.reverseRecOn with
  | nil => simp [checksum]
  | append_singleton q p ih =>
    simp only [checksum, List.foldl_append, List.foldl_cons, List.foldl_nil] at ih ⊢
    rw [ih]
    ac_rfl

/-- Settles O58: the bytes appended are XORed into the checksum of those before, and their own seed is taken out. -/
theorem checksumRule : Obligations.ChecksumRule := by
  unfold Obligations.ChecksumRule
  refine ⟨rfl, fun p q => ?_, fun b => rfl⟩
  rw [checksum, List.foldl_append, foldl_xor_eq_checksum]
  rfl

end Sys2Proof.Machine
